-- ==== Sys2Proof/Word.lean ====
section
/-! DEFINITION. The word of the machine and its two halves (30_encoding.md R53, R59): a word is a record of four
unsigned fields, and an instruction is one 20-bit half of it. Only the types and their plainest projections stand here;
the codec is in Decode.lean. -/

namespace Sys2Proof

/-- An 8-bit opcode field (R6: `OP_BITS = 8`). -/
abbrev Opcode := BitVec 8

/-- A 12-bit address field (R6: `ADDR_BITS = 12`). -/
abbrev Addr := BitVec 12

/-- A half-instruction `{opcode, address}` (R12, R59). -/
structure Half where
  op : Opcode
  addr : Addr
deriving DecidableEq, Repr, Inhabited

/-- The all-zero half of R60. -/
def Half.zero : Half := ⟨0, 0⟩

/-- One memory cell: a record of four unsigned fields (R53). Every value of this type is field-valid (R54), because the
fields have exactly the widths the spec gives them. -/
structure Word where
  lop : Opcode
  laddr : Addr
  rop : Opcode
  raddr : Addr
deriving DecidableEq, Repr, Inhabited

/-- The zero word `0x0000000000`, which every cell holds at creation (R30, R35). -/
def Word.zero : Word := ⟨0, 0, 0, 0⟩

/-- The left half-instruction `{lop, laddr}` (R53). -/
def Word.left (w : Word) : Half := ⟨w.lop, w.laddr⟩

/-- The right half-instruction `{rop, raddr}` (R53). -/
def Word.right (w : Word) : Half := ⟨w.rop, w.raddr⟩

/-- The word with the two given halves. -/
def Word.ofHalves (l r : Half) : Word := ⟨l.op, l.addr, r.op, r.addr⟩

end Sys2Proof
end

