-- ==== Sys2Proof/Config.lean ====
section
/-! DEFINITION. What an implementation fixes (00_scope.md R6, R9) and the free values: the memory's size, the two open
parameters `VIEW_POLICY` and `DIV_ROUNDING`, and the values the spec leaves unspecified. -/

namespace Sys2Proof

/-- `VIEW_POLICY` (R9, R16; 92_eei_decisions.md D3): how the word view of a value outside `0 .. 2^40-1` is derived. -/
inductive ViewPolicy where
  /-- The view is the low 40 bits, in two's complement. -/
  | wrap
  /-- The derivation raises `ConstructionError`. -/
  | fault
deriving DecidableEq, Repr

/-- `DIV_ROUNDING` (R9, R105; 92_eei_decisions.md D10): the quotient of a negative dividend. -/
inductive DivRounding where
  /-- The quotient is rounded toward zero. -/
  | trunc
  /-- The quotient is rounded toward minus infinity. -/
  | floor
deriving DecidableEq, Repr

/-- The two parameters that the spec leaves open and that a model takes as arguments (R9). -/
structure Params where
  viewPolicy : ViewPolicy
  divRounding : DivRounding
deriving DecidableEq, Repr

/-- `MEM_SIZE = 1024` words (R6, R35). -/
def Config.memSize : Nat := 1024

/-- FREE VALUE (R16, D33, 93_implementation_defined.md I3; log entry 3): what `AC.val` holds after the n-th
`ConstructionError` raised by `SetAC`. It has no body, so nothing can be proved of it. -/
opaque Config.freeAcVal : Nat → Int

/-- FREE VALUE (R16, D33, I3; log entry 3): what `AC.view` holds after the n-th `ConstructionError` raised by `SetAC`. -/
opaque Config.freeAcView : Nat → Word

/-- FREE VALUE (R54, R140; log entry 9): which of several offending fields a `ConstructionError` of a word's
construction records. -/
opaque Config.offendingIndex : List Int → Nat

end Sys2Proof
end

