-- ==== Sys2Proof/Syntax.lean ====
section
/-! DEFINITION. The instructions: one constructor for each of the 22 rows of the opcode table (30_encoding.md R61, R79). -/

namespace Sys2Proof

/-- An instruction of the dispatch table (R61). `a` is the 12-bit address field. For opcodes 10, 20, 21 and 50 the field
`x` is ignored by the machine (R63); it stands here so that no bit of an encoding is dropped (log entry 8). -/
inductive Instr where
  /-- Opcode 1, `LOAD M(X)` (R90). -/
  | loadM (a : Addr)
  /-- Opcode 2, `LOAD -M(X)` (R91): the offset is subtracted from the base, the value is not negated. -/
  | loadBackM (a : Addr)
  /-- Opcode 3, `LOAD |M(X)|` (R92). -/
  | loadAbsM (a : Addr)
  /-- Opcode 4, `LOAD -|M(X)|` (R93): backward offset, negated absolute value. -/
  | loadNegAbsM (a : Addr)
  /-- Opcode 5, `ADD M(X)` (R100). -/
  | addM (a : Addr)
  /-- Opcode 6, `SUB M(X)` (R101). -/
  | subM (a : Addr)
  /-- Opcode 7, `ADD |M(X)|` (R102). -/
  | addAbsM (a : Addr)
  /-- Opcode 8, `SUB |M(X)|` (R103). -/
  | subAbsM (a : Addr)
  /-- Opcode 9, `LOAD MQ,M(X)` (R94). -/
  | loadMQM (a : Addr)
  /-- Opcode 10, `LOAD MQ` (R95). -/
  | loadMQ (x : Addr)
  /-- Opcode 11, `MUL M(X)` (R104). -/
  | mulM (a : Addr)
  /-- Opcode 12, `DIV M(X)` (R105). -/
  | divM (a : Addr)
  /-- Opcode 13, `JUMP M(X,0:19)` (R110). -/
  | jumpLeft (a : Addr)
  /-- Opcode 14, `JUMP M(X,20:39)` (R111). -/
  | jumpRight (a : Addr)
  /-- Opcode 15, `JUMP+ M(X,0:19)` (R112). -/
  | jumpPlusLeft (a : Addr)
  /-- Opcode 16, `JUMP+ M(X,20:39)` (R113). -/
  | jumpPlusRight (a : Addr)
  /-- Opcode 18, `STOR M(X,8:19)` (R120). -/
  | storLeftAddr (a : Addr)
  /-- Opcode 19, `STOR M(X,28:39)` (R121). -/
  | storRightAddr (a : Addr)
  /-- Opcode 20, `LSH` (R125). -/
  | lsh (x : Addr)
  /-- Opcode 21, `RSH` (R126). -/
  | rsh (x : Addr)
  /-- Opcode 33, `STOR M(X)` (R122). -/
  | storM (a : Addr)
  /-- Opcode 50, `HLT` (R130). -/
  | hlt (x : Addr)
deriving DecidableEq, Repr

end Sys2Proof
end

