-- ==== Sys2Proof/WellFormed.lean ====
section
/-! DEFINITION. The checks of 30_encoding.md R54: the four field values a host hands over to build a word, and the
widths they must fit. A term of `Instr` fits its widths by its type; `Instr.wf` says so with the same check. -/

namespace Sys2Proof

/-- `v` is an unsigned field value of `n` bits (R54: "four unsigned fields"). -/
def fitsBits (n : Nat) (v : Int) : Bool := decide (0 ≤ v) && decide (v < 2 ^ n)

/-- The four field values from which the host builds a word (R54, R157), before any check. -/
structure RawWord where
  lop : Int
  laddr : Int
  rop : Int
  raddr : Int
deriving DecidableEq, Repr

/-- Every field fits its width, so that `MakeWord` succeeds (R54). -/
def RawWord.wf (r : RawWord) : Bool :=
  fitsBits 8 r.lop && fitsBits 12 r.laddr && fitsBits 8 r.rop && fitsBits 12 r.raddr

/-- The field values that exceed their widths, left to right. -/
def RawWord.offending (r : RawWord) : List Int :=
  [(8, r.lop), (12, r.laddr), (8, r.rop), (12, r.raddr)].filterMap
    fun f => if fitsBits f.1 f.2 then none else some f.2

/-- The 12-bit address field of an instruction (R59). -/
def Instr.addr : Instr → Addr
  | .loadM a => a
  | .loadBackM a => a
  | .loadAbsM a => a
  | .loadNegAbsM a => a
  | .addM a => a
  | .subM a => a
  | .addAbsM a => a
  | .subAbsM a => a
  | .loadMQM a => a
  | .loadMQ x => x
  | .mulM a => a
  | .divM a => a
  | .jumpLeft a => a
  | .jumpRight a => a
  | .jumpPlusLeft a => a
  | .jumpPlusRight a => a
  | .storLeftAddr a => a
  | .storRightAddr a => a
  | .lsh x => x
  | .rsh x => x
  | .storM a => a
  | .hlt x => x

/-- The address field fits its 12 bits (R53, R59). -/
def Instr.wf (i : Instr) : Bool := fitsBits 12 i.addr.toNat

end Sys2Proof
end

