-- ==== Sys2Proof/Decode.lean ====
section
/-! DEFINITION. The word codec (30_encoding.md R54 to R58), the decoder of a half-instruction (R59 to R63), total on any
bits and rejecting by name, and the encoder. -/

namespace Sys2Proof

/-! ### The codec -/

/-- `pack(w)` (R55): each field shifted into its place and OR-ed together, the left opcode highest. -/
def Word.pack (w : Word) : BitVec 40 :=
  (w.lop.setWidth 40 <<< 32) ||| (w.laddr.setWidth 40 <<< 20) ||| (w.rop.setWidth 40 <<< 12) ||| w.raddr.setWidth 40

/-- `unpack(p)` (R56): the fields `p[39:32]`, `p[31:20]`, `p[19:12]` and `p[11:0]`. -/
def Word.unpack (p : BitVec 40) : Word :=
  ⟨p.extractLsb' 32 8, p.extractLsb' 20 12, p.extractLsb' 12 8, p.extractLsb' 0 12⟩

/-- `val(w) = pack(w)`, the numeric value of a word (R58). -/
def Word.val (w : Word) : Int := w.pack.toNat

/-- `MakeWord` (R54): the word of four field values, or the offending value that `ConstructionError` records (R140).
Which of several offending values is recorded is free (log entry 9). -/
def makeWord (r : RawWord) : Except Int Word :=
  match r.offending with
  | [] => .ok ⟨.ofInt 8 r.lop, .ofInt 12 r.laddr, .ofInt 8 r.rop, .ofInt 12 r.raddr⟩
  | [v] => .error v
  | v :: vs => .error ((v :: vs).getD (Config.offendingIndex (v :: vs) % (v :: vs).length) v)

/-! ### The decoder -/

/-- Why a half-instruction is no instruction of the table. -/
inductive DecodeReject where
  /-- The opcode is one of the 233 that the table never allocates (R62). -/
  | unallocated (op : Opcode)
deriving DecidableEq, Repr

/-- The instruction of a half: the opcode is the only selector (R61, R63, R79). -/
def decodeHalf (h : Half) : Except DecodeReject Instr :=
  match h.op.toNat with
  | 1 => .ok (.loadM h.addr)
  | 2 => .ok (.loadBackM h.addr)
  | 3 => .ok (.loadAbsM h.addr)
  | 4 => .ok (.loadNegAbsM h.addr)
  | 5 => .ok (.addM h.addr)
  | 6 => .ok (.subM h.addr)
  | 7 => .ok (.addAbsM h.addr)
  | 8 => .ok (.subAbsM h.addr)
  | 9 => .ok (.loadMQM h.addr)
  | 10 => .ok (.loadMQ h.addr)
  | 11 => .ok (.mulM h.addr)
  | 12 => .ok (.divM h.addr)
  | 13 => .ok (.jumpLeft h.addr)
  | 14 => .ok (.jumpRight h.addr)
  | 15 => .ok (.jumpPlusLeft h.addr)
  | 16 => .ok (.jumpPlusRight h.addr)
  | 18 => .ok (.storLeftAddr h.addr)
  | 19 => .ok (.storRightAddr h.addr)
  | 20 => .ok (.lsh h.addr)
  | 21 => .ok (.rsh h.addr)
  | 33 => .ok (.storM h.addr)
  | 50 => .ok (.hlt h.addr)
  | _ => .error (.unallocated h.op)

/-- The half that a memory fetch of the word takes first: the right one when the left is all-zero, else the left one
(R60, R76 to R78). -/
def Word.firstHalf (w : Word) : Half := if w.left = Half.zero then w.right else w.left

/-! ### The encoder -/

/-- The opcode of an instruction (R61). -/
def Instr.opcode : Instr → Opcode
  | .loadM _ => 0x01
  | .loadBackM _ => 0x02
  | .loadAbsM _ => 0x03
  | .loadNegAbsM _ => 0x04
  | .addM _ => 0x05
  | .subM _ => 0x06
  | .addAbsM _ => 0x07
  | .subAbsM _ => 0x08
  | .loadMQM _ => 0x09
  | .loadMQ _ => 0x0A
  | .mulM _ => 0x0B
  | .divM _ => 0x0C
  | .jumpLeft _ => 0x0D
  | .jumpRight _ => 0x0E
  | .jumpPlusLeft _ => 0x0F
  | .jumpPlusRight _ => 0x10
  | .storLeftAddr _ => 0x12
  | .storRightAddr _ => 0x13
  | .lsh _ => 0x14
  | .rsh _ => 0x15
  | .storM _ => 0x21
  | .hlt _ => 0x32

/-- The half-instruction of an instruction (R59). -/
def encodeHalf (i : Instr) : Half := ⟨i.opcode, i.addr⟩

/-- The word that holds one instruction, in its left half, the right half all-zero (R60, R68). -/
def encode (i : Instr) : Word := Word.ofHalves (encodeHalf i) Half.zero

/-- The word that holds two instructions (R60). -/
def encodePair (l r : Instr) : Word := Word.ofHalves (encodeHalf l) (encodeHalf r)

/-! ### The opcode table's numbering of an instruction's bits -/

/-- The half whose bits the opcode table numbers. A row of `spec/opcode_table.json` gives 8 bits, the opcode in bits 7:0
("fixed", "match", "mask"); the address bits, above `nbits`, are then 0. Given more than 8 bits, the half is the 20-bit
number of the row's "encoding": the opcode in bits 19:12 and the address in bits 11:0 (R53; log entry 7). -/
def tableHalf (nbits w : Nat) : Half :=
  if nbits ≤ 8 then ⟨.ofNat 8 w, 0⟩ else ⟨.ofNat 8 (w >>> 12), .ofNat 12 w⟩

/-- The word that holds a half numbered as the opcode table numbers it, in the left half. -/
def tableWord (nbits w : Nat) : Word := Word.ofHalves (tableHalf nbits w) Half.zero

/-- The instruction the decoder reads from the bits `w`, numbered as `spec/opcode_table.json` numbers them. -/
def decodeTableWord (nbits w : Nat) : Option Instr :=
  match decodeHalf (tableWord nbits w).firstHalf with
  | .ok i => some i
  | .error _ => none

end Sys2Proof
end

