-- ==== Sys2Proof/Machine/State.lean ====
section
/-! DEFINITION. The state of one machine instance (10_state.md R13 to R30), as plain data, the ways a step can stop, and
the state at creation. -/

namespace Sys2Proof.Machine

/-- Memory as a list of (address, word) cells (20_memory.md R35). An address that no cell lists reads as the zero word,
the spec's value at creation (R30). The canonical form is `Memory.wf` of Ops.lean. The unit is the word, since the
machine has no smaller one (R35, R41; log entry 1). -/
abbrev Memory := List (Nat × Word)

/-- MODEL'S OWN (log entry 5): how the host's run stands (40_fetch_execute.md R81, R83 to R85). It is no register of the
machine: the spec's outcomes `Halted`, `Completed` and `Stepped` are answers to the host. -/
inductive RunStatus where
  /-- The run loop has not ended: its next turn runs a cycle. -/
  | running
  /-- The run ended with `Halted`: opcode 50 executed (R130). -/
  | halted
  /-- The bulk run ended with `Completed`: `PC` reached the memory limit before a fetch (R83). -/
  | completed
  /-- The single step ended with `Stepped` (R84). -/
  | stepped
deriving DecidableEq, Repr

/-- The architectural state `(mem, AC, MQ, MAR, MBR, PC, IR, IBR, BASE)` of R13, and three fields of the model's own. -/
structure State where
  /-- The 1024 words (R35). -/
  mem : Memory
  /-- `AC.val`, an unbounded integer (R15). -/
  acVal : Int
  /-- `AC.view`, the accumulator's word view (R15, R16). -/
  acView : Word
  /-- `MQ`, an unbounded integer (R19). -/
  mq : Int
  /-- `MAR` (R22). -/
  mar : Nat
  /-- `MBR` (R23). -/
  mbr : Word
  /-- `PC`, a natural number with no wrap-around (R20). -/
  pc : Nat
  /-- `IR`, the opcode of the current instruction (R21). -/
  ir : Opcode
  /-- `IBR`: empty, or a pending half-instruction (R24). -/
  ibr : Option Half
  /-- `BASE` (R25). -/
  base : Nat
  /-- MODEL'S OWN: the machine's open parameters (R9), fixed for a machine; no step writes them (log entry 2). -/
  params : Params
  /-- MODEL'S OWN: how the host's run stands (log entry 5). -/
  run : RunStatus
  /-- MODEL'S OWN: how many free values of the accumulator have been drawn (log entry 3). -/
  draws : Nat
deriving DecidableEq, Repr

/-- The engine's faults (60_exceptions.md R140), each fatal to the run, each with the information the spec records and
with `left`, the state the fault leaves: the state at the `raise`, with no rollback (40_fetch_execute.md R86, R145; log
entry 4). All four are safe: the spec names them. -/
inductive Fault where
  /-- Raised by `SetAC` under `VIEW_POLICY = fault` for a value outside `0 .. 2^40-1` (opcodes 4 to 8, 10, 12, 20, 21),
  and by a host's word construction (R141). `value` is the offending value. Safe; the accumulator in `left` is free. -/
  | constructionError (value : Int) (left : State)
  /-- Raised by Execute for an opcode that is not in the dispatch table (R131). Safe. -/
  | unknownOpcode (op : Opcode) (left : State)
  /-- Raised by a fetch, an operand access, a jump target, a bulk load or a single step outside `0 .. 1023` (R141).
  Safe. -/
  | memoryAccess (address : Int) (left : State)
  /-- Raised by opcode 12 for a zero accumulator or a zero divisor (R105). Safe. -/
  | divideByZero (left : State)
deriving DecidableEq, Repr

/-- Why the model gives an instruction no meaning. No arm of `exec` and no meaning of this model refuses. -/
inductive Refusal where
  /-- Raised by an arm of `exec` whose instruction has no meaning yet. Safe: the model stops and claims nothing. -/
  | notModelled (mnemonic : String)
deriving DecidableEq, Repr

/-- A new machine instance with the given parameters (70_reset_and_hazards.md R152): the creation column of R30. -/
def State.create (p : Params) : State where
  mem := []
  acVal := 0
  acView := Word.zero
  mq := 0
  mar := 0
  mbr := Word.zero
  pc := 0
  ir := 0
  ibr := none
  base := 0
  params := p
  run := .running
  draws := 0

/-- The machine right after creation (R30). DESIGN CHOICE (log entry 2): the parameters are those the spec's vectors
assume, `wrap`, and `trunc`; no statement rests on them. -/
def State.reset : State := State.create ⟨.wrap, .trunc⟩

end Sys2Proof.Machine
end

