-- ==== Sys2Proof/Machine/Ops.lean ====
section
/-! DEFINITION. The named operations over memory and registers: the access primitives of 20_memory.md R38 to R40,
`View` and `SetAC` of 10_state.md R16, and raising a fault (60_exceptions.md R145). -/

namespace Sys2Proof.Machine

/-- What a step answers. -/
abbrev Result := Host.Outcome State Fault Refusal

/-- Run `k` on the next state, or stop where `o` stopped. -/
def andThen (o : Result) (k : State → Result) : Result :=
  match o with
  | .next s => k s
  | .fault f => .fault f
  | .refused r => .refused r

/-! ### The memory array -/

/-- The word at an address; an unlisted address reads as the zero word (R30, R35). -/
def Memory.read : Memory → Nat → Word
  | [], _ => Word.zero
  | (b, w) :: rest, a => if a = b then w else Memory.read rest a

/-- Memory with no cell listed for the address, so that the address reads as the zero word. -/
def Memory.erase : Memory → Nat → Memory
  | [], _ => []
  | (b, w) :: rest, a => if a = b then Memory.erase rest a else (b, w) :: Memory.erase rest a

/-- Memory with a cell put in its place in the rising order of addresses. -/
def Memory.insert : Memory → Nat → Word → Memory
  | [], a, w => [(a, w)]
  | (b, v) :: rest, a, w => if a < b then (a, w) :: (b, v) :: rest else (b, v) :: Memory.insert rest a w

/-- Memory with the word `w` at the address `a`, and every other word as it was. The zero word is written by listing
nothing, which keeps the canonical form. -/
def Memory.write (m : Memory) (a : Nat) (w : Word) : Memory :=
  if w = Word.zero then Memory.erase m a else Memory.insert (Memory.erase m a) a w

/-- The canonical form: addresses strictly rising and inside the memory (R35), and no cell that holds the zero word. -/
abbrev Memory.wf (m : Memory) : Prop :=
  m.Pairwise (fun x y => x.1 < y.1) ∧ ∀ c ∈ m, c.2 ≠ Word.zero ∧ c.1 < Config.memSize

/-- The address exists: it lies in `0 .. 1023` (R35, R38). -/
abbrev inMemory (ea : Int) : Prop := 0 ≤ ea ∧ ea < Config.memSize

/-- The two 12-bit fields that `MemWriteField` can overwrite (R40). -/
inductive AddrField where
  | laddr
  | raddr
deriving DecidableEq, Repr

/-- The word with one address field replaced and the other three fields unchanged (R40). -/
def setField (w : Word) (f : AddrField) (v : Addr) : Word :=
  match f with
  | .laddr => { w with laddr := v }
  | .raddr => { w with raddr := v }

/-! ### Raising a fault, and going on after one -/

/-- Raise a fault (00_scope.md R11, R86, R145): nothing is saved, no mode changes, nothing vectors, and the state is left
as it stands at the `raise`. -/
def raise (f : State → Fault) (s : State) : Result := .fault (f s)

/-- The state that a fault leaves (R86). -/
def Fault.left : Fault → State
  | .constructionError _ s => s
  | .unknownOpcode _ s => s
  | .memoryAccess _ s => s
  | .divideByZero s => s

/-- The numeric code of a fault (R140, D20). -/
def Fault.code : Fault → Nat
  | .constructionError _ _ => 1
  | .unknownOpcode _ _ => 2
  | .memoryAccess _ _ => 3
  | .divideByZero _ => 4

/-- Begin a run from the present state (R83, R130, R146): the machine is not locked by a halt or a fault, and a run goes
on from the `PC` and `IBR` that were left. -/
def startRun (s : State) : State := { s with run := .running }

/-- There is no return-from-trap instruction (R146): after a fault the host may start a run from the state it left. -/
def Fault.resume (f : Fault) : State := startRun f.left

/-! ### Access primitives -/

/-- `MemRead(ea, 1)` (R38): continue with the word at `ea`, or raise `MemoryAccessError(ea)`. -/
def memRead (ea : Int) (s : State) (k : Word → Result) : Result :=
  if inMemory ea then k (s.mem.read ea.toNat) else raise (.memoryAccess ea) s

/-- `MemWrite(ea, 1, w)` (R39). -/
def memWrite (ea : Int) (w : Word) (s : State) : Result :=
  if inMemory ea then .next { s with mem := s.mem.write ea.toNat w } else raise (.memoryAccess ea) s

/-- `MemWriteField(ea, f, v)` (R40): a partial update of the addressed cell. -/
def memWriteField (ea : Int) (f : AddrField) (v : Addr) (s : State) : Result :=
  memRead ea s fun w => memWrite ea (setField w f v) s

/-! ### The accumulator and the multiplier-quotient register -/

/-- `View(v)` (R16): the word view of a numeric value, or none where `VIEW_POLICY = fault` raises. -/
def viewOf (p : ViewPolicy) (v : Int) : Option Word :=
  if 0 ≤ v ∧ v < 2 ^ 40 then some (Word.unpack (.ofNat 40 v.toNat))
  else
    match p with
    | .wrap => some (Word.unpack (.ofNat 40 (v % 2 ^ 40).toNat))
    | .fault => none

/-- The accumulator after a `ConstructionError` of `SetAC` (R16, D33): both its parts are free values (log entry 3). -/
def drawAC (s : State) : State :=
  { s with acVal := Config.freeAcVal s.draws, acView := Config.freeAcView s.draws, draws := s.draws + 1 }

/-- `SetAC(v)` (R16), the only way an instruction writes the accumulator. -/
def setAC (v : Int) (s : State) : Result :=
  match viewOf s.params.viewPolicy v with
  | some w => .next { s with acVal := v, acView := w }
  | none => raise (.constructionError v) (drawAC s)

/-- `MQ <- v` (R19). -/
def setMQ (v : Int) (s : State) : State := { s with mq := v }

end Sys2Proof.Machine
end

