-- ==== Sys2Proof/Machine/Operands.lean ====
section
/-! DEFINITION. The operand forms: the forward and the backward effective address of 20_memory.md R37, and the numeric
value of the addressed word (30_encoding.md R58). -/

namespace Sys2Proof.Machine

/-- `EA(a) = BASE + a` (R37): every memory opcode but 2 and 4, the jumps included. -/
def eaForward (s : State) (a : Addr) : Int := (s.base : Int) + (a.toNat : Int)

/-- `EA(a) = BASE - a` (R37): opcodes 2 and 4. -/
def eaBackward (s : State) (a : Addr) : Int := (s.base : Int) - (a.toNat : Int)

/-- Continue with `val(w)` of the word at `ea` (R38, R58). -/
def operandVal (ea : Int) (s : State) (k : Int → Result) : Result := memRead ea s fun w => k w.val

/-- Continue with `|val(w)|` of the word at `ea` (R38, R58, D25). -/
def operandAbs (ea : Int) (s : State) (k : Int → Result) : Result := operandVal ea s fun v => k v.natAbs

end Sys2Proof.Machine
end

