-- ==== Sys2Proof/Machine/Arithmetic.lean ====
section
/-! DEFINITION. Arithmetic on unbounded integers: opcodes 5, 6, 7, 8, 11 and 12 (42_arithmetic.md). -/

namespace Sys2Proof.Machine

/-- Opcode 5, `ADD M(X)` (R100). -/
def execAddM (a : Addr) (s : State) : Result := operandVal (eaForward s a) s fun v => setAC (s.acVal + v) s

/-- Opcode 6, `SUB M(X)` (R101). -/
def execSubM (a : Addr) (s : State) : Result := operandVal (eaForward s a) s fun v => setAC (s.acVal - v) s

/-- Opcode 7, `ADD |M(X)|` (R102). -/
def execAddAbsM (a : Addr) (s : State) : Result := operandAbs (eaForward s a) s fun v => setAC (s.acVal + v) s

/-- Opcode 8, `SUB |M(X)|` (R103). -/
def execSubAbsM (a : Addr) (s : State) : Result := operandAbs (eaForward s a) s fun v => setAC (s.acVal - v) s

/-- The high 20-bit field of a product, its bits 39:20 (R104, D9). -/
def productHigh (p : Int) : Int := p.fdiv (2 ^ 20) % 2 ^ 20

/-- The low 20-bit field of a product, its bits 19:0 (R104, D9). -/
def productLow (p : Int) : Int := p % 2 ^ 20

/-- Opcode 11, `MUL M(X)` (R104): the product of `MQ` and the operand, split into two 20-bit fields. -/
def execMulM (a : Addr) (s : State) : Result :=
  operandVal (eaForward s a) s fun v =>
    andThen (setAC (productHigh (s.mq * v)) s) fun t => .next (setMQ (productLow (s.mq * v)) t)

/-- The quotient of R105: the floor for a positive dividend or under `DIV_ROUNDING = floor`, else truncated. -/
def quotient (r : DivRounding) (n d : Int) : Int :=
  if 0 < n ∨ r = .floor then n.fdiv d else n.tdiv d

/-- Opcode 12, `DIV M(X)` (R105): the dividend's test, the operand's read, the divisor's test, `SetAC` of the remainder
and then the write of `MQ`, in that order (D10, D26). -/
def execDivM (a : Addr) (s : State) : Result :=
  if s.acVal = 0 then raise .divideByZero s
  else
    operandVal (eaForward s a) s fun d =>
      if d = 0 then raise .divideByZero s
      else
        let q := quotient s.params.divRounding s.acVal d
        andThen (setAC (s.acVal - q * d) s) fun t => .next (setMQ q t)

end Sys2Proof.Machine
end

