-- ==== Sys2Proof/Machine/Flags.lean ====
section
/-! DEFINITION. Conditions. The engine has no flags, condition codes or predicate registers (10_state.md R26); the only
condition that any instruction tests is the sign of the accumulator's numeric value. -/

namespace Sys2Proof.Machine

/-- `AC.val >= 0`, read by opcodes 15 and 16 (R26, R112, R113, D29). -/
def acNonneg (s : State) : Bool := decide (0 ≤ s.acVal)

end Sys2Proof.Machine
end

