-- ==== Sys2Proof/Machine/Control.lean ====
section
/-! DEFINITION. Control transfer: opcodes 13 to 16 (43_control_transfer.md). -/

namespace Sys2Proof.Machine

/-- Transfer control to the left half of the word at `t` (R108, R110): the pending half is discarded. -/
def goLeft (t : Int) (s : State) : Result :=
  if inMemory t then .next { s with pc := t.toNat, ibr := none } else raise (.memoryAccess t) s

/-- Transfer control to the right half of the word at `t` (R108, R111): it is copied into `IBR` as it is, all-zero or
not (D32). -/
def goRight (t : Int) (s : State) : Result :=
  memRead t s fun w => .next { s with pc := t.toNat, ibr := some w.right }

/-- Opcode 13, `JUMP M(X,0:19)` (R110). -/
def execJumpLeft (a : Addr) (s : State) : Result := goLeft (eaForward s a) s

/-- Opcode 14, `JUMP M(X,20:39)` (R111). -/
def execJumpRight (a : Addr) (s : State) : Result := goRight (eaForward s a) s

/-- Opcode 15, `JUMP+ M(X,0:19)` (R112): not taken, it writes nothing and checks nothing (D7). -/
def execJumpPlusLeft (a : Addr) (s : State) : Result :=
  if acNonneg s then goLeft (eaForward s a) s else .next s

/-- Opcode 16, `JUMP+ M(X,20:39)` (R113): not taken, it writes nothing and reads nothing (D7). -/
def execJumpPlusRight (a : Addr) (s : State) : Result :=
  if acNonneg s then goRight (eaForward s a) s else .next s

end Sys2Proof.Machine
end

