-- ==== Sys2Proof/Machine/DataTransfer.lean ====
section
/-! DEFINITION. Data transfer: opcodes 1, 2, 3, 4, 9 and 10 (41_data_transfer.md). -/

namespace Sys2Proof.Machine

/-- Opcode 1, `LOAD M(X)` (R90). -/
def execLoadM (a : Addr) (s : State) : Result := operandVal (eaForward s a) s fun v => setAC v s

/-- Opcode 2, `LOAD -M(X)` (R91): the offset goes backward, the value is not negated. -/
def execLoadBackM (a : Addr) (s : State) : Result := operandVal (eaBackward s a) s fun v => setAC v s

/-- Opcode 3, `LOAD |M(X)|` (R92). -/
def execLoadAbsM (a : Addr) (s : State) : Result := operandAbs (eaForward s a) s fun v => setAC v s

/-- Opcode 4, `LOAD -|M(X)|` (R93). -/
def execLoadNegAbsM (a : Addr) (s : State) : Result := operandAbs (eaBackward s a) s fun v => setAC (-v) s

/-- Opcode 9, `LOAD MQ,M(X)` (R94). -/
def execLoadMQM (a : Addr) (s : State) : Result := operandVal (eaForward s a) s fun v => .next (setMQ v s)

/-- Opcode 10, `LOAD MQ` (R95); the address field is ignored (R63). -/
def execLoadMQ (s : State) : Result := setAC s.mq s

end Sys2Proof.Machine
end

