-- ==== Sys2Proof/Machine/Halt.lean ====
section
/-! DEFINITION. Halt: opcode 50 (46_halt_and_unallocated.md). -/

namespace Sys2Proof.Machine

/-- Opcode 50, `HLT` (R130): the cycle's outcome is `Halt`, which stops the run loop; nothing of the machine's own state
is written. The outcome is recorded in the model's field `run` (log entry 5). -/
def execHlt (s : State) : Result := .next { s with run := .halted }

end Sys2Proof.Machine
end

