-- ==== Sys2Proof/Machine/Shift.lean ====
section
/-! DEFINITION. Shifts by one bit of the accumulator's numeric value: opcodes 20 and 21 (45_shift.md). The address field
is ignored (R63). -/

namespace Sys2Proof.Machine

/-- Opcode 20, `LSH` (R124, R125): doubling, no bit lost. -/
def execLsh (s : State) : Result := setAC (s.acVal * 2) s

/-- Opcode 21, `RSH` (R124, R126): floor halving, the sign is kept. -/
def execRsh (s : State) : Result := setAC (s.acVal.fdiv 2) s

end Sys2Proof.Machine
end

