-- ==== Sys2Proof/Machine/Store.lean ====
section
/-! DEFINITION. Stores: opcodes 18, 19 and 33 (44_store.md). They read `AC.view`, never `AC.val` (R15, D27). -/

namespace Sys2Proof.Machine

/-- Opcode 18, `STOR M(X,8:19)` (R120). -/
def execStorLeftAddr (a : Addr) (s : State) : Result := memWriteField (eaForward s a) .laddr s.acView.raddr s

/-- Opcode 19, `STOR M(X,28:39)` (R121). -/
def execStorRightAddr (a : Addr) (s : State) : Result := memWriteField (eaForward s a) .raddr s.acView.raddr s

/-- Opcode 33, `STOR M(X)` (R122). -/
def execStorM (a : Addr) (s : State) : Result := memWrite (eaForward s a) s.acView s

end Sys2Proof.Machine
end

