-- ==== Sys2Proof/Machine/Dispatch.lean ====
section
/-! DEFINITION. Execute's dispatch (40_fetch_execute.md R79): one arm per instruction of the table. -/

namespace Sys2Proof.Machine

def exec (i : Instr) (s : State) : Host.Outcome State Fault Refusal :=
  match i with
  | .loadM a => Sys2Proof.Machine.execLoadM a s
  | .loadBackM a => Sys2Proof.Machine.execLoadBackM a s
  | .loadAbsM a => Sys2Proof.Machine.execLoadAbsM a s
  | .loadNegAbsM a => Sys2Proof.Machine.execLoadNegAbsM a s
  | .addM a => Sys2Proof.Machine.execAddM a s
  | .subM a => Sys2Proof.Machine.execSubM a s
  | .addAbsM a => Sys2Proof.Machine.execAddAbsM a s
  | .subAbsM a => Sys2Proof.Machine.execSubAbsM a s
  | .loadMQM a => Sys2Proof.Machine.execLoadMQM a s
  | .loadMQ _ => Sys2Proof.Machine.execLoadMQ s
  | .mulM a => Sys2Proof.Machine.execMulM a s
  | .divM a => Sys2Proof.Machine.execDivM a s
  | .jumpLeft a => Sys2Proof.Machine.execJumpLeft a s
  | .jumpRight a => Sys2Proof.Machine.execJumpRight a s
  | .jumpPlusLeft a => Sys2Proof.Machine.execJumpPlusLeft a s
  | .jumpPlusRight a => Sys2Proof.Machine.execJumpPlusRight a s
  | .storLeftAddr a => Sys2Proof.Machine.execStorLeftAddr a s
  | .storRightAddr a => Sys2Proof.Machine.execStorRightAddr a s
  | .lsh _ => Sys2Proof.Machine.execLsh s
  | .rsh _ => Sys2Proof.Machine.execRsh s
  | .storM a => Sys2Proof.Machine.execStorM a s
  | .hlt _ => Sys2Proof.Machine.execHlt s

end Sys2Proof.Machine
end

