-- ==== Sys2Proof/Machine/Fetch.lean ====
section
/-! DEFINITION. Fetch (40_fetch_execute.md R74 to R78). -/

namespace Sys2Proof.Machine

/-- The half-instruction becomes the current one: `IR` and `MAR` are written (R74, R76 to R78). -/
def take (h : Half) (s : State) : State := { s with ir := h.op, mar := h.addr.toNat }

/-- Fetch, buffered case (R74): no memory read, `PC` advances. -/
def fetchBuffered (h : Half) (s : State) : State := { take h s with ibr := none, pc := s.pc + 1 }

/-- Fetch from the word `w` just read into `MBR` (R76 to R78). A single half advances `PC`; the left half of a populated
pair leaves `PC` and buffers the right half (C1, D8). -/
def fetchWord (w : Word) (s : State) : State :=
  if w.left = Half.zero then { take w.right s with pc := s.pc + 1 }
  else if w.right = Half.zero then { take w.left s with pc := s.pc + 1 }
  else { take w.left s with ibr := some w.right }

/-- Fetch, memory case (R75): `MAR` is written before the slot is checked. -/
def fetchMemory (s : State) : Result :=
  memRead s.pc { s with mar := s.pc } fun w => .next (fetchWord w { s with mar := s.pc, mbr := w })

/-- Fetch (R74, R75). -/
def fetch (s : State) : Result :=
  match s.ibr with
  | some h => .next (fetchBuffered h s)
  | none => fetchMemory s

end Sys2Proof.Machine
end

