-- ==== Sys2Proof/Machine/Cycle.lean ====
section
/-! DEFINITION. The cycle (40_fetch_execute.md R73), Execute (R79) and one turn of the bulk run's loop (R83). -/

namespace Sys2Proof.Machine

/-- Execute (R79): dispatch on `IR` with the address field in `MAR`; an opcode outside the table faults (R131). -/
def execute (s : State) : Result :=
  match decodeHalf ⟨s.ir, .ofNat 12 s.mar⟩ with
  | .ok i => exec i s
  | .error (.unallocated op) => raise (.unknownOpcode op) s

/-- One cycle: Fetch, and Execute if Fetch did not fault (R73). -/
def cycle (s : State) : Result := andThen (fetch s) execute

/-- One turn of the bulk run's loop (R83): the limit test before the fetch, then a cycle. A run that has ended stays as it
ended until the host acts (R149; log entry 5). -/
def runTurn (s : State) : Result :=
  match s.run with
  | .running => if s.pc = Config.memSize then .next { s with run := .completed } else cycle s
  | .halted => .next s
  | .completed => .next s
  | .stepped => .next s

/-- The state in which the next turn fetches and runs the instruction of the word `w`: the run goes on, nothing is
buffered, and `w` is the word at `PC`. A `PC` outside the memory, from which nothing can be fetched, becomes 0. -/
def placeNext (w : Word) (s : State) : State :=
  let a := if s.pc < Config.memSize then s.pc else 0
  { s with run := .running, ibr := none, pc := a, mem := s.mem.write a w }

end Sys2Proof.Machine
end

