-- ==== Sys2Proof/Machine/Step.lean ====
section
/-! DEFINITION. The step of the machine: one turn of the host's run loop, which runs one cycle (40_fetch_execute.md R73,
R83). -/

namespace Sys2Proof.Machine

/-- One step: next, fault or refusal. -/
def step (s : State) : Host.Outcome State Fault Refusal := runTurn s

/-- The state with the instruction whose bits are `w`, numbered as the opcode table numbers them, stored where the next
step fetches (log entry 6). -/
def State.withFetchWord (s : State) (nbits w : Nat) : State := placeNext (tableWord nbits w) s

end Sys2Proof.Machine
end

