-- ==== Sys2Proof/Machine/HostInterface.lean ====
section
/-! DEFINITION. The host's operations (70_reset_and_hazards.md R150 to R158, 40_fetch_execute.md R82 to R84). Each is one
function on the state: the host acts only between cycles or between runs (R5, R158). -/

namespace Sys2Proof.Machine

/-- The answer of set-base (R150). -/
inductive SetBaseReply where
  | ok
  | rejected
deriving DecidableEq, Repr

/-- `SetBase(b)` (R150): it also writes `PC`, and it leaves `IBR` (D18). -/
def setBase (b : Int) (s : State) : SetBaseReply × State :=
  if inMemory b then (.ok, { s with base := b.toNat, pc := b.toNat }) else (.rejected, s)

/-- Get base (R151). -/
def getBase (s : State) : Nat := s.base

/-- The register snapshot (R153, D30). -/
structure Snapshot where
  acVal : Int
  acView : Word
  mq : Int
  mar : Nat
  mbr : Word
  pc : Nat
  ir : Opcode
  ibr : Option Half
deriving DecidableEq, Repr

/-- Snapshot (R153). -/
def snapshot (s : State) : Snapshot := ⟨s.acVal, s.acView, s.mq, s.mar, s.mbr, s.pc, s.ir, s.ibr⟩

/-- Memory range read (R154): none where the request is refused (D24). -/
def memRange (lo hi : Int) (s : State) : Option (List (Nat × Word)) :=
  if 0 ≤ lo ∧ lo ≤ hi ∧ hi < Config.memSize then
    some ((List.range (hi.toNat + 1 - lo.toNat)).map fun k => (lo.toNat + k, s.mem.read (lo.toNat + k)))
  else none

/-- Register reset (R155, D19): every register as in the "after register reset" column of R30; `mem` and `BASE` stay. The
model's own fields: the parameters and the count of draws stay, and no run has ended (log entry 13). -/
def registerReset (s : State) : State :=
  { State.create s.params with mem := s.mem, base := s.base, pc := s.base, draws := s.draws }

/-- Full reset (R156, D19): the register reset, and every word of memory is the zero word. -/
def fullReset (s : State) : State := { registerReset s with mem := [] }

/-- Word construction by the host (R54, R157): a failure raises `ConstructionError` and changes no machine state. -/
def hostWord (r : RawWord) (s : State) : Except Fault Word :=
  match makeWord r with
  | .ok w => .ok w
  | .error v => .error (.constructionError v s)

/-- The bulk load from the `i`-th word on (R82). -/
def bulkLoadFrom (i : Nat) (ws : List Word) (s : State) : Result :=
  match ws with
  | [] => .next s
  | w :: rest => andThen (memWrite ((s.base : Int) + (i : Int)) w s) (bulkLoadFrom (i + 1) rest)

/-- `BulkLoad` (R82): the sequence is copied to `mem[BASE ..]`; the words before one that does not fit stay written
(D16). -/
def bulkLoad (ws : List Word) (s : State) : Result := bulkLoadFrom 0 ws s

/-- At most `n` turns of the run's loop (R83). `n` is the model's fuel (93_implementation_defined.md I10; log entry 11): a
run that used it up is still `running`. -/
def runTurns : Nat → State → Result
  | 0, s => .next s
  | n + 1, s => andThen (runTurn s) (runTurns n)

/-- `BulkRun` (R82, R83): load, then turns from the present `PC` and `IBR` (D14). The field `run` of the state it answers
says how the run ended. -/
def bulkRun (fuel : Nat) (ws : List Word) (s : State) : Result :=
  andThen (bulkLoad ws s) fun t => runTurns fuel (startRun t)

/-- The outcome of a single step from the cycle's (R84): `Halted` if opcode 50 ran, else `Stepped`. -/
def endStep (s : State) : Result :=
  match s.run with
  | .halted => .next s
  | .running => .next { s with run := .stepped }
  | .completed => .next { s with run := .stepped }
  | .stepped => .next { s with run := .stepped }

/-- `SingleStep(w)` (R84): the word is stored at `PC` and exactly one cycle runs; with a pending half in `IBR` that half
runs, not `w` (D34). -/
def singleStep (w : Word) (s : State) : Result :=
  andThen (memWrite s.pc w s) fun t => andThen (cycle (startRun t)) endStep

end Sys2Proof.Machine
end

