-- ==== Sys2Proof/Safety.lean ====
section
/-! DEFINITION. The terms in which claims about the machine are stated: the invariants of 10_state.md R29, runs without a
fault, and which state two outcomes share. -/

namespace Sys2Proof.Machine

/-- The invariants (3), (4) and (5) of R29, with `MAR` in `0 .. 4095` (R14, R22). That the list of cells keeps its
canonical form is the model's own clause (log entry 1); field-validity (1) and the range of `IR` (6) hold by the types. -/
abbrev State.Bounded (s : State) : Prop :=
  s.mem.wf ∧ s.pc ≤ Config.memSize ∧ (s.pc = Config.memSize → s.ibr = none) ∧ s.base < Config.memSize ∧ s.mar < 2 ^ 12

/-- The invariant (2) of R29: the accumulator's word view is the view of its numeric value. -/
abbrev State.ViewAgrees (s : State) : Prop := viewOf s.params.viewPolicy s.acVal = some s.acView

/-- Every invariant of R29, and the canonical form of the memory's list (log entry 1). -/
abbrev State.Inv (s : State) : Prop := s.Bounded ∧ s.ViewAgrees

/-- `SetAC(v)` does not fault at `s` (R16): `VIEW_POLICY = wrap`, or `v` lies in `0 .. 2^40-1`. -/
abbrev State.Viewable (s : State) (v : Int) : Prop := s.params.viewPolicy = .wrap ∨ (0 ≤ v ∧ v < 2 ^ 40)

/-- `t` differs from `s` in the accumulator alone (and in the model's count of draws). -/
abbrev State.SameButAC (s t : State) : Prop :=
  t = { s with acVal := t.acVal, acView := t.acView, draws := t.draws }

/-- The outcome is a `ConstructionError` for `v` that leaves everything but the accumulator as it is in `s` (R16, D33). -/
def ViewFault (s : State) (v : Int) (o : Result) : Prop :=
  ∃ left, o = .fault (.constructionError v left) ∧ s.SameButAC left

/-- A call by which the host can change the machine (70_reset_and_hazards.md R150, R155, R156, R158; 40_fetch_execute.md
R82 to R84). -/
inductive HostCall where
  | setBase (b : Int)
  | registerReset
  | fullReset
  | bulkLoad (ws : List Word)
  | bulkRun (fuel : Nat) (ws : List Word)
  | singleStep (w : Word)
deriving DecidableEq, Repr

/-- What the machine is after a host call, or the fault it ended with. -/
def hostCall (c : HostCall) (s : State) : Result :=
  match c with
  | .setBase b => .next (Sys2Proof.Machine.setBase b s).2
  | .registerReset => .next (Sys2Proof.Machine.registerReset s)
  | .fullReset => .next (Sys2Proof.Machine.fullReset s)
  | .bulkLoad ws => Sys2Proof.Machine.bulkLoad ws s
  | .bulkRun fuel ws => Sys2Proof.Machine.bulkRun fuel ws s
  | .singleStep w => Sys2Proof.Machine.singleStep w s

/-- The effective address of an instruction with a memory operand (R37): backward for opcodes 2 and 4, else forward. -/
def effectiveAddress (i : Instr) (s : State) : Int :=
  if i.opcode.toNat ∈ [2, 4] then eaBackward s i.addr else eaForward s i.addr

/-- The address an instruction stores to, where it stores (R37, R120 to R122). -/
def storeAddress (i : Instr) (s : State) : Option Int :=
  match i with
  | .loadM _ => none
  | .loadBackM _ => none
  | .loadAbsM _ => none
  | .loadNegAbsM _ => none
  | .addM _ => none
  | .subM _ => none
  | .addAbsM _ => none
  | .subAbsM _ => none
  | .loadMQM _ => none
  | .loadMQ _ => none
  | .mulM _ => none
  | .divM _ => none
  | .jumpLeft _ => none
  | .jumpRight _ => none
  | .jumpPlusLeft _ => none
  | .jumpPlusRight _ => none
  | .storLeftAddr a => some (eaForward s a)
  | .storRightAddr a => some (eaForward s a)
  | .lsh _ => none
  | .rsh _ => none
  | .storM a => some (eaForward s a)
  | .hlt _ => none

/-- The opcodes of the dispatch table (R61). -/
def allocated : List Nat := [1, 2, 3, 4, 5, 6, 7, 8, 9, 10, 11, 12, 13, 14, 15, 16, 18, 19, 20, 21, 33, 50]

/-- `n` steps from `s` run with no fault. -/
def SafeFor (n : Nat) (s : State) : Prop := ∃ t, Sys2Proof.core.run n s = .next t

end Sys2Proof.Machine
end

