-- ==== Sys2Proof/Certificates/Slice0/Obligations.lean ====
section
/-! DEFINITION. The statements for the provers. Each says which rule of spec/ it formalises; where a clause rests on a
decision of the spec's own (92_eei_decisions.md D<n>) or on a choice of the model's (a log entry), the docstring says so.
An equation `exec i s = .next { s with … }` is the instruction's completion and its whole frame at once: every register,
the run's status and every word of memory that the update does not name stay as they are in `s`. -/

open Sys2Proof Sys2Proof.Machine

/-! ### The codec and the encoding -/

/-- R55 to R57: the codec is a bijection between words and the integers `0 .. 2^40-1`. The direction `pack(unpack(p)) = p`
is the spec's own inference. -/
def Obligations.PackAndUnpackAreInverse : Prop :=
  (∀ w : Word, Word.unpack w.pack = w) ∧ ∀ p : BitVec 40, (Word.unpack p).pack = p

/-- R55, R58: the numeric value of a word is the sum of its fields at the places of R53, it lies in `0 .. 2^40-1`, and it
is its own absolute value (D25). The shift amounts are the spec's own inference. -/
def Obligations.ValueIsWeightedFieldSum : Prop :=
  ∀ w : Word,
    w.val = (w.lop.toNat : Int) * 2 ^ 32 + (w.laddr.toNat : Int) * 2 ^ 20 + (w.rop.toNat : Int) * 2 ^ 12
        + (w.raddr.toNat : Int) ∧
      0 ≤ w.val ∧ w.val < 2 ^ 40 ∧ |w.val| = w.val

/-- R54: `MakeWord` gives the word with exactly the four field values when each fits its width, and otherwise raises
`ConstructionError` with one of the values that do not fit (which one is free: log entry 9), the machine's state
unchanged (R157, D35). -/
def Obligations.MakeWordChecksEveryField : Prop :=
  ∀ (r : RawWord) (s : State),
    ((0 ≤ r.lop ∧ r.lop ≤ 255) ∧ (0 ≤ r.laddr ∧ r.laddr ≤ 4095) ∧ (0 ≤ r.rop ∧ r.rop ≤ 255) ∧
        (0 ≤ r.raddr ∧ r.raddr ≤ 4095) →
      ∃ w, hostWord r s = .ok w ∧ (w.lop.toNat : Int) = r.lop ∧ (w.laddr.toNat : Int) = r.laddr ∧
        (w.rop.toNat : Int) = r.rop ∧ (w.raddr.toNat : Int) = r.raddr) ∧
    (¬ ((0 ≤ r.lop ∧ r.lop ≤ 255) ∧ (0 ≤ r.laddr ∧ r.laddr ≤ 4095) ∧ (0 ≤ r.rop ∧ r.rop ≤ 255) ∧
        (0 ≤ r.raddr ∧ r.raddr ≤ 4095)) →
      ∃ v, hostWord r s = .error (.constructionError v s) ∧
        ((v = r.lop ∧ ¬ (0 ≤ v ∧ v ≤ 255)) ∨ (v = r.laddr ∧ ¬ (0 ≤ v ∧ v ≤ 4095)) ∨
          (v = r.rop ∧ ¬ (0 ≤ v ∧ v ≤ 255)) ∨ (v = r.raddr ∧ ¬ (0 ≤ v ∧ v ≤ 4095))))

/-- R53, R59, R61: decode and encode agree for every pair of instructions through the packed 40-bit word: each half of
the word decodes to the instruction that was encoded there, with every address field at every value. -/
def Obligations.DecodeOfEncodedWord : Prop :=
  ∀ i j : Instr, i.wf = true → j.wf = true →
    decodeHalf (Word.unpack (encodePair i j).pack).left = .ok i ∧
      decodeHalf (Word.unpack (encodePair i j).pack).right = .ok j ∧
      decodeHalf (Word.unpack (encode i).pack).firstHalf = .ok i

/-- R61 (log entry 8): a half that decodes is the encoding of the term of `Instr` it decodes to, so no two halves decode to
one term. That is so for opcodes 10, 20, 21 and 50 because the model keeps their address field in the syntax (log entry
8); R63 makes every value of that field the same operation (D31), and the statement AddressFieldIgnored says so. -/
def Obligations.EncodeOfDecodedHalf : Prop :=
  ∀ (h : Half) (i : Instr), decodeHalf h = .ok i → encodeHalf i = h

/-- R61, R62: decoding rejects a half exactly when its opcode is none of the 22 of the table, and names the opcode. -/
def Obligations.DecodeRejectsExactlyUnallocated : Prop :=
  ∀ h : Half,
    (h.op.toNat ∈ allocated → ∃ i, decodeHalf h = .ok i) ∧
      (h.op.toNat ∉ allocated → decodeHalf h = .error (.unallocated h.op))

/-- R68: each of the seven words of the encoding examples holds the half-instructions its row gives, decoded, and has the
value of the row's decimal column. The word of fields all at maximum has the opcode 255, which is unallocated (R62), in
both halves. -/
def Obligations.EncodingExamplesDecode : Prop :=
  (decodeHalf (Word.unpack 0x0100706003).left = .ok (.loadM 7) ∧
    decodeHalf (Word.unpack 0x0100706003).right = .ok (.subM 3) ∧ (Word.unpack 0x0100706003).val = 4302331907) ∧
  (decodeHalf (Word.unpack 0x0100500000).left = .ok (.loadM 5) ∧
    (Word.unpack 0x0100500000).right = Half.zero ∧ (Word.unpack 0x0100500000).val = 4300210176) ∧
  (decodeHalf (Word.unpack 0x0600300000).left = .ok (.subM 3) ∧
    (Word.unpack 0x0600300000).right = Half.zero ∧ (Word.unpack 0x0600300000).val = 25772949504) ∧
  (decodeHalf (Word.unpack 0x1303600000).left = .ok (.storRightAddr 54) ∧
    (Word.unpack 0x1303600000).right = Half.zero ∧ (Word.unpack 0x1303600000).val = 81661001728) ∧
  (decodeHalf (Word.unpack 0x100E400000).left = .ok (.jumpPlusRight 228) ∧
    (Word.unpack 0x100E400000).right = Half.zero ∧ (Word.unpack 0x100E400000).val = 68958552064) ∧
  (decodeHalf (Word.unpack 0x3200000000).left = .ok (.hlt 0) ∧
    (Word.unpack 0x3200000000).right = Half.zero ∧ (Word.unpack 0x3200000000).val = 214748364800) ∧
  (Word.unpack 0xFFFFFFFFFF = ⟨255, 4095, 255, 4095⟩ ∧ (Word.unpack 0xFFFFFFFFFF).val = 1099511627775 ∧
    decodeHalf (Word.unpack 0xFFFFFFFFFF).left = .error (.unallocated 255) ∧
    decodeHalf (Word.unpack 0xFFFFFFFFFF).right = .error (.unallocated 255))

/-- R16: the view of a value in `0 .. 2^40-1` is the word of that value; outside it is the word of the value modulo `2^40`
under `VIEW_POLICY = wrap`, and there is none under `fault` (the open parameter of D3). -/
def Obligations.ViewOfEveryValue : Prop :=
  ∀ (p : ViewPolicy) (v : Int),
    (0 ≤ v ∧ v < 2 ^ 40 → ∃ w, viewOf p v = some w ∧ w.val = v) ∧
      (¬ (0 ≤ v ∧ v < 2 ^ 40) → p = .wrap → ∃ w, viewOf p v = some w ∧ w.val = v % 2 ^ 40) ∧
      (¬ (0 ≤ v ∧ v < 2 ^ 40) → p = .fault → viewOf p v = none)

/-! ### Creation and reset -/

/-- R30, R152, R155, R156: the values at creation and after each reset, for every value of the open parameters. The reset
columns are the spec's decision D19. -/
def Obligations.CreationAndResetValues : Prop :=
  (∀ p : Params,
    (∀ a, (State.create p).mem.read a = Word.zero) ∧ (State.create p).base = 0 ∧
      snapshot (State.create p) = ⟨0, Word.zero, 0, 0, Word.zero, 0, 0, none⟩) ∧
    (∀ s : State,
      (∀ a, (registerReset s).mem.read a = s.mem.read a) ∧ (registerReset s).base = s.base ∧
        snapshot (registerReset s) = ⟨0, Word.zero, 0, 0, Word.zero, s.base, 0, none⟩) ∧
    ∀ s : State,
      (∀ a, (fullReset s).mem.read a = Word.zero) ∧ (fullReset s).base = s.base ∧
        snapshot (fullReset s) = ⟨0, Word.zero, 0, 0, Word.zero, s.base, 0, none⟩

/-- R29, R30, with `MAR` in `0 .. 4095` (R14, R22): a machine at creation meets every invariant, for every value of the open
parameters. `State.Inv` holds one clause more than these rules, the canonical form of the memory's list, which is the
model's own (log entry 1). -/
def Obligations.CreationMeetsInvariants : Prop :=
  (∀ p : Params, (State.create p).Inv) ∧ State.reset.Inv

/-! ### Invariants -/

/-- R29, at both of its boundaries: from every state that meets the invariants (the word view the view of the value,
`0 <= PC <= 1024`, `PC = 1024` only with an empty `IBR`, `BASE <= 1023`, `MAR <= 4095` of R14 and R22), a step that answers
a next state gives a state that meets them, and so does every host call (set-base, the two resets, bulk load, bulk run,
single step) that ends without a fault. The invariants hold one clause of the model's own, the canonical form of the
memory's list (log entry 1); the step and the fuel of a bulk run are those of log entries 5 and 11. -/
def Obligations.StepAndHostCallsKeepInvariants : Prop :=
  ∀ s t : State, s.Inv →
    (step s = .next t → t.Inv) ∧ ∀ c : HostCall, hostCall c s = .next t → t.Inv

/-- R29, R86: the state that a fault of a step or of a host call leaves meets the invariants too, but for the accumulator
after a `ConstructionError`, which is unspecified (D33; free values, log entry 3). That a fault carries the state it leaves
is the model's form (log entry 4), and so is the invariants' clause on the canonical form of the memory's list (log entry
1). -/
def Obligations.FaultLeavesInvariants : Prop :=
  ∀ (s : State) (f : Fault), s.Inv →
    (step s = .fault f ∨ ∃ c : HostCall, hostCall c s = .fault f) →
      f.left.Bounded ∧ (f.code ≠ 1 → f.left.ViewAgrees)

/-! ### Fetch, the cycle and the run loop -/

/-- R74: with a pending half, fetch consumes it: no memory is read, `MBR` stays, `PC` advances by 1. -/
def Obligations.FetchConsumesPendingHalf : Prop :=
  ∀ (s : State) (h : Half), s.ibr = some h →
    fetch s = .next { s with ir := h.op, mar := h.addr.toNat, ibr := none, pc := s.pc + 1 }

/-- R75: with an empty buffer and `PC` outside `0 .. 1023`, fetch faults with `MAR` already written. Such a `PC` is met
only outside the invariants or at a run's end (the spec's own inference). -/
def Obligations.FetchOutsideMemoryFaults : Prop :=
  ∀ s : State, s.ibr = none → 1023 < s.pc →
    fetch s = .fault (.memoryAccess s.pc { s with mar := s.pc })

/-- R76, R77: a word with an all-zero half holds one instruction: fetch takes the other half (of the all-zero word the
right one) and advances `PC`. -/
def Obligations.FetchTakesTheOnlyHalf : Prop :=
  ∀ s : State, s.ibr = none → s.pc ≤ 1023 →
    let w := s.mem.read s.pc
    (w.lop = 0 ∧ w.laddr = 0 →
      fetch s = .next { s with mbr := w, ir := w.rop, mar := w.raddr.toNat, pc := s.pc + 1 }) ∧
    (¬ (w.lop = 0 ∧ w.laddr = 0) → w.rop = 0 ∧ w.raddr = 0 →
      fetch s = .next { s with mbr := w, ir := w.lop, mar := w.laddr.toNat, pc := s.pc + 1 })

/-- R76, R131, R165: a word whose value is below 4096, the zero word among them, executed as an instruction faults with
opcode 0 and the value in `MAR` (the spec's own inference). -/
def Obligations.SmallDataWordFaultsAsOpcodeZero : Prop :=
  ∀ s : State, s.run = .running → s.ibr = none → s.pc ≤ 1023 →
    let w := s.mem.read s.pc
    w.val < 4096 →
      step s = .fault (.unknownOpcode 0 { s with mbr := w, ir := 0, mar := w.val.toNat, pc := s.pc + 1 })

/-- R78, C1, D8: of a word with both halves populated, fetch takes the left half and buffers the right; `PC` stays. -/
def Obligations.FetchBuffersTheRightHalf : Prop :=
  ∀ s : State, s.ibr = none → s.pc ≤ 1023 →
    let w := s.mem.read s.pc
    ¬ (w.lop = 0 ∧ w.laddr = 0) → ¬ (w.rop = 0 ∧ w.raddr = 0) →
      fetch s = .next { s with mbr := w, ir := w.lop, mar := w.laddr.toNat, ibr := some ⟨w.rop, w.raddr⟩ }

/-- R73, R79: while the run goes on, a step runs the decoded instruction: from the pending half, from a word with one
instruction on either side, and from a word with two, on the state that the fetch leaves. -/
def Obligations.StepRunsDecodedInstruction : Prop :=
  ∀ (s : State) (i : Instr), s.run = .running → s.pc ≤ 1023 →
    let w := s.mem.read s.pc
    (∀ h, s.ibr = some h → decodeHalf h = .ok i →
      step s = exec i { s with ir := h.op, mar := h.addr.toNat, ibr := none, pc := s.pc + 1 }) ∧
    (s.ibr = none → w.left = Half.zero → decodeHalf w.right = .ok i →
      step s = exec i { s with mbr := w, ir := w.rop, mar := w.raddr.toNat, pc := s.pc + 1 }) ∧
    (s.ibr = none → w.left ≠ Half.zero → w.right = Half.zero → decodeHalf w.left = .ok i →
      step s = exec i { s with mbr := w, ir := w.lop, mar := w.laddr.toNat, pc := s.pc + 1 }) ∧
    (s.ibr = none → w.left ≠ Half.zero → w.right ≠ Half.zero → decodeHalf w.left = .ok i →
      step s = exec i { s with mbr := w, ir := w.lop, mar := w.laddr.toNat, ibr := some w.right })

/-- R79 (log entries 6 and 7): with a word of the opcode table placed where the next step fetches, the next step runs the
instruction that the decoder reads from it. The placing is the model's own. -/
def Obligations.StepRunsThePlacedWord : Prop :=
  ∀ (s : State) (n w : Nat) (i : Instr), s.pc ≤ 1023 → decodeTableWord n w = some i →
    step (s.withFetchWord n w) =
      exec i { s with mem := s.mem.write s.pc (tableWord n w), mbr := tableWord n w, ir := (tableHalf n w).op,
                      mar := (tableHalf n w).addr.toNat, ibr := none, pc := s.pc + 1, run := .running }

/-- R131: every opcode outside the table faults at Execute, with its number, on the state the fetch left. -/
def Obligations.UnallocatedOpcodeFaults : Prop :=
  ∀ s t : State, s.run = .running → s.pc ≠ 1024 → fetch s = .next t →
    t.ir.toNat ∈ [0, 17] ∨ (22 ≤ t.ir.toNat ∧ t.ir.toNat ≤ 32) ∨ (34 ≤ t.ir.toNat ∧ t.ir.toNat ≤ 49) ∨
        51 ≤ t.ir.toNat →
      step s = .fault (.unknownOpcode t.ir t)

/-- R87, R78, R74: the two halves of a word run in two steps, the left first; the second step reads no memory and advances
`PC` to the next word. It holds for every left half that neither jumps nor halts, a store to the very word included
(R162). `PC`'s place is the spec's decision D8. -/
def Obligations.PairRunsLeftThenRight : Prop :=
  ∀ (s t : State) (i j : Instr), s.run = .running → s.ibr = none → s.pc ≤ 1023 →
    let w := s.mem.read s.pc
    decodeHalf w.left = .ok i → decodeHalf w.right = .ok j → i.opcode.toNat ∉ [13, 14, 15, 16, 50] →
      step s = .next t →
        t.pc = s.pc ∧ t.ibr = some w.right ∧
          step t = exec j { t with ir := w.rop, mar := w.raddr.toNat, ibr := none, pc := s.pc + 1 }

/-- R162, R120 to R122: a left half that stores into its own word (opcode 18 its left address field, 19 its right one, 33
the whole word) changes memory and not the buffered copy: the next step runs the right half as it was fetched. The
effective address is the spec's decision D4 (log entry 15), that `PC` stays at the left half and advances with the right
one is D8 (log entry 18), and that the stores read `AC.view` is D27 (log entry 27). -/
def Obligations.BufferedHalfIsStale : Prop :=
  ∀ (s : State) (a : Addr) (j : Instr), s.run = .running → s.ibr = none → s.pc ≤ 1023 → eaForward s a = s.pc →
    let w := s.mem.read s.pc
    ∀ c ∈ [(Instr.storLeftAddr a, { w with laddr := s.acView.raddr }),
        (Instr.storRightAddr a, { w with raddr := s.acView.raddr }), (Instr.storM a, s.acView)],
      decodeHalf w.left = .ok c.1 → decodeHalf w.right = .ok j →
        ∃ t, step s = .next t ∧ t.mem.read s.pc = c.2 ∧ t.pc = s.pc ∧ t.ibr = some w.right ∧
          step t = exec j { t with ir := w.rop, mar := w.raddr.toNat, ibr := none, pc := s.pc + 1 }

/-- R83, D15: the run ends with `Completed` when `PC` is 1024 before a fetch, with nothing else changed; and a run that
has ended stays as it ended until the host acts (R149; the field `run` and the standing still are the model's own, log
entry 5). -/
def Obligations.RunEndsAtTheMemoryLimit : Prop :=
  ∀ s : State,
    (s.run = .running → s.pc = 1024 → step s = .next { s with run := .completed }) ∧
      (s.run ≠ .running → step s = .next s)

/-- R85, D36: `Completed` is reached in no other way than by `PC` = 1024 before a fetch, and no step of a bulk run ends with
the single step's outcome `Stepped`. Both are said of the field `run`, which records the outcomes and is the model's own
(log entry 5). -/
def Obligations.CompletedOnlyAtTheMemoryLimit : Prop :=
  ∀ s t : State, s.run = .running → step s = .next t →
    (t.run = .completed → s.pc = 1024 ∧ t = { s with run := .completed }) ∧ t.run ≠ .stepped

/-- R130, D13: `HLT` writes no state of the machine and stops the run loop: whatever number of steps follows changes
nothing (the field `run` that records the outcome is the model's own, log entry 5); a run that the host starts then goes
on from the `PC` and `IBR` that were left. -/
def Obligations.HaltStopsTheRun : Prop :=
  ∀ (x : Addr) (s : State),
    exec (.hlt x) s = .next { s with run := .halted } ∧
      (∀ n, runTurns n { s with run := .halted } = .next { s with run := .halted }) ∧
      (s.run = .running → startRun { s with run := .halted } = s)

/-- R132: `HLT` is the only instruction that ends a run (D13; the field `run` is the model's own, log entry 5). -/
def Obligations.OnlyHaltEndsTheRun : Prop :=
  ∀ (i : Instr) (s t : State), exec i s = .next t → i.opcode ≠ 0x32 → t.run = s.run

/-- R83, R85, 93_implementation_defined.md I10: the model's fuel never changes how a run ends: a run that has ended within
`n` turns is the same run with any more fuel (log entry 11). -/
def Obligations.FuelNeverChangesAnEndedRun : Prop :=
  ∀ (n m : Nat) (s : State),
    (∀ t, runTurns n s = .next t → t.run ≠ .running → runTurns (n + m) s = .next t) ∧
      ∀ f, runTurns n s = .fault f → runTurns (n + m) s = .fault f

/-! ### Frames over the whole dispatch table -/

/-- R80, D12: only the jumps (opcodes 13 to 16) write `PC` or `IBR`. -/
def Obligations.OnlyJumpsWritePcAndBuffer : Prop :=
  ∀ (i : Instr) (s t : State), exec i s = .next t → i.opcode.toNat ∉ [13, 14, 15, 16] →
    t.pc = s.pc ∧ t.ibr = s.ibr

/-- R80, R21 to R23, R25, D12: no instruction writes `IR`, `MAR`, `MBR` or `BASE` (nor the model's own parameters and
count of draws). -/
def Obligations.NoInstructionWritesFetchRegisters : Prop :=
  ∀ (i : Instr) (s t : State), exec i s = .next t →
    t.ir = s.ir ∧ t.mar = s.mar ∧ t.mbr = s.mbr ∧ t.base = s.base ∧ t.params = s.params ∧ t.draws = s.draws

/-- R44, R39, R40: an instruction changes no word of memory but the one at the address it stores to, and one that stores
nothing changes none. -/
def Obligations.OnlyTheStoredWordChanges : Prop :=
  ∀ (i : Instr) (s t : State), exec i s = .next t →
    ∀ b : Nat, storeAddress i s ≠ some (b : Int) → t.mem.read b = s.mem.read b

/-- R17, R19: only opcodes 1 to 8, 10, 11, 12, 20 and 21 write `AC`, and only 9, 11 and 12 write `MQ`. -/
def Obligations.WritersOfAccumulatorAndMq : Prop :=
  ∀ (i : Instr) (s t : State), exec i s = .next t →
    (i.opcode.toNat ∉ [1, 2, 3, 4, 5, 6, 7, 8, 10, 11, 12, 20, 21] → t.acVal = s.acVal ∧ t.acView = s.acView) ∧
      (i.opcode.toNat ∉ [9, 11, 12] → t.mq = s.mq)

/-- R20, R23: no instruction reads `PC`, `MBR`, `IR` or `MAR` as data (its address field stands in the instruction): with
other contents there, an instruction that is no jump does the same to everything else and keeps those contents. -/
def Obligations.NoInstructionReadsFetchRegisters : Prop :=
  ∀ (i : Instr) (s t : State) (n m : Nat) (w : Word) (o : Opcode),
    exec i s = .next t → i.opcode.toNat ∉ [13, 14, 15, 16] →
      exec i { s with pc := n, mar := m, mbr := w, ir := o } = .next { t with pc := n, mar := m, mbr := w, ir := o }

/-- R63, D31: opcodes 10, 20, 21 and 50 ignore the address field. -/
def Obligations.AddressFieldIgnored : Prop :=
  ∀ (x y : Addr) (s : State),
    exec (.loadMQ x) s = exec (.loadMQ y) s ∧ exec (.lsh x) s = exec (.lsh y) s ∧
      exec (.rsh x) s = exec (.rsh y) s ∧ exec (.hlt x) s = exec (.hlt y) s

/-! ### Data transfer -/

/-- R90, D5: opcode 1 loads the word at `BASE + a`: its value into `AC.val` and the word itself into `AC.view`, under
either policy; above 1023 it faults and writes nothing. -/
def Obligations.LoadForward : Prop :=
  ∀ (a : Addr) (s : State),
    decodeHalf ⟨0x01, a⟩ = .ok (.loadM a) ∧
    (s.base + a.toNat ≤ 1023 →
      exec (.loadM a) s = .next { s with acVal := (s.mem.read (s.base + a.toNat)).val,
                                         acView := s.mem.read (s.base + a.toNat) }) ∧
    (1023 < s.base + a.toNat →
      exec (.loadM a) s = .fault (.memoryAccess ((s.base : Int) + (a.toNat : Int)) s))

/-- R91, D4, D5: opcode 2 loads the word at `BASE - a`, not negated; with `a > BASE` it faults and writes nothing. -/
def Obligations.LoadBackward : Prop :=
  ∀ (a : Addr) (s : State), s.base ≤ 1023 →
    decodeHalf ⟨0x02, a⟩ = .ok (.loadBackM a) ∧
    (a.toNat ≤ s.base →
      exec (.loadBackM a) s = .next { s with acVal := (s.mem.read (s.base - a.toNat)).val,
                                             acView := s.mem.read (s.base - a.toNat) }) ∧
    (s.base < a.toNat →
      exec (.loadBackM a) s = .fault (.memoryAccess ((s.base : Int) - (a.toNat : Int)) s))

/-- R92, R58, D4, D25: opcode 3 assigns the absolute value of the word at `BASE + a`, which is its value. -/
def Obligations.LoadAbsoluteAssigns : Prop :=
  ∀ (a : Addr) (s : State), s.base + a.toNat ≤ 1023 →
    exec (.loadAbsM a) s = .next { s with acVal := |(s.mem.read (s.base + a.toNat)).val|,
                                          acView := s.mem.read (s.base + a.toNat) }

/-- R93, R16, D3, D4, D5, D33: opcode 4 loads the negated absolute value of the word at `BASE - a`: zero for a zero word; else a negative value
whose view is `2^40 - val(w)` under `wrap`, and a `ConstructionError` under `fault`; with `a > BASE` it faults and writes
nothing. -/
def Obligations.LoadNegativeAbsoluteBackward : Prop :=
  ∀ (a : Addr) (s : State), s.base ≤ 1023 →
    let m := (s.mem.read (s.base - a.toNat)).val
    decodeHalf ⟨0x04, a⟩ = .ok (.loadNegAbsM a) ∧
    (a.toNat ≤ s.base → m = 0 →
      exec (.loadNegAbsM a) s = .next { s with acVal := 0, acView := Word.zero }) ∧
    (a.toNat ≤ s.base → m ≠ 0 → s.params.viewPolicy = .wrap →
      ∃ w, w.val = 2 ^ 40 - m ∧ exec (.loadNegAbsM a) s = .next { s with acVal := -m, acView := w }) ∧
    (a.toNat ≤ s.base → m ≠ 0 → s.params.viewPolicy = .fault → ViewFault s (-m) (exec (.loadNegAbsM a) s)) ∧
    (s.base < a.toNat →
      exec (.loadNegAbsM a) s = .fault (.memoryAccess ((s.base : Int) - (a.toNat : Int)) s))

/-- R94, D4: opcode 9 loads the value of the word at `BASE + a` into `MQ` and writes nothing else. -/
def Obligations.LoadMqFromMemory : Prop :=
  ∀ (a : Addr) (s : State), s.base + a.toNat ≤ 1023 →
    exec (.loadMQM a) s = .next { s with mq := (s.mem.read (s.base + a.toNat)).val }

/-- R95, R16, D3, D31: opcode 10 copies `MQ` into the accumulator and re-derives the view; where the view faults it raises
`ConstructionError` and everything but the accumulator stays. -/
def Obligations.LoadMqIntoAccumulator : Prop :=
  ∀ (x : Addr) (s : State),
    (s.Viewable s.mq →
      ∃ w, w.val = s.mq % 2 ^ 40 ∧ exec (.loadMQ x) s = .next { s with acVal := s.mq, acView := w }) ∧
    (¬ s.Viewable s.mq → ViewFault s s.mq (exec (.loadMQ x) s))

/-! ### Arithmetic -/

/-- R99 to R103, R16, D3, D4: opcodes 5 to 8 add and subtract exactly, on unbounded integers, the word at `BASE + a`; the
view is the result modulo `2^40`. Where the view faults they raise `ConstructionError` for the result. -/
def Obligations.AddAndSubtractAreExact : Prop :=
  ∀ (a : Addr) (s : State), s.base + a.toNat ≤ 1023 →
    let m := (s.mem.read (s.base + a.toNat)).val
    ∀ c ∈ [(Instr.addM a, s.acVal + m), (Instr.subM a, s.acVal - m), (Instr.addAbsM a, s.acVal + |m|),
        (Instr.subAbsM a, s.acVal - |m|)],
      (s.Viewable c.2 →
        ∃ w, w.val = c.2 % 2 ^ 40 ∧ exec c.1 s = .next { s with acVal := c.2, acView := w }) ∧
      (¬ s.Viewable c.2 → ViewFault s c.2 (exec c.1 s))

/-- R104, D4, D9: opcode 11 always completes on an address that exists: `AC` and `MQ` are the high and the low 20 bits of
the low 40 bits of the exact product of `MQ` and the word at `BASE + a`, for negative products too. -/
def Obligations.MultiplySplitsTheProduct : Prop :=
  ∀ (a : Addr) (s : State), s.base + a.toNat ≤ 1023 →
    ∃ (hi lo : Int) (w : Word), 0 ≤ hi ∧ hi < 2 ^ 20 ∧ 0 ≤ lo ∧ lo < 2 ^ 20 ∧
      (s.mq * (s.mem.read (s.base + a.toNat)).val) % 2 ^ 40 = hi * 2 ^ 20 + lo ∧ w.val = hi ∧
      exec (.mulM a) s = .next { s with acVal := hi, acView := w, mq := lo }

/-- R105, D4, D10: opcode 12 with a non-zero dividend and divisor writes a quotient `q` to `MQ` and a remainder `r` to the
accumulator with `q * d + r` the dividend; `0 <= r < d` for a positive dividend or under `DIV_ROUNDING = floor`, and
`-d < r <= 0` for a negative one under `trunc`. Where the remainder's view faults, `MQ` stays too (C8). -/
def Obligations.DivideGivesQuotientAndRemainder : Prop :=
  ∀ (a : Addr) (s : State), s.base + a.toNat ≤ 1023 → s.acVal ≠ 0 →
    let d := (s.mem.read (s.base + a.toNat)).val
    d ≠ 0 →
      ∃ q r : Int, q * d + r = s.acVal ∧
        (if 0 < s.acVal ∨ s.params.divRounding = .floor then 0 ≤ r ∧ r < d else -d < r ∧ r ≤ 0) ∧
        (s.Viewable r →
          ∃ w, w.val = r % 2 ^ 40 ∧ exec (.divM a) s = .next { s with acVal := r, acView := w, mq := q }) ∧
        (¬ s.Viewable r → ViewFault s r (exec (.divM a) s))

/-- R105, R144, D5, D10, D26: the faults of opcode 12 in their order: a zero accumulator first, whatever the address; then
an address outside the memory; then a zero divisor. None of them writes anything. -/
def Obligations.DivideFaultsInOrder : Prop :=
  ∀ (a : Addr) (s : State),
    (s.acVal = 0 → exec (.divM a) s = .fault (.divideByZero s)) ∧
    (s.acVal ≠ 0 → 1023 < s.base + a.toNat →
      exec (.divM a) s = .fault (.memoryAccess ((s.base : Int) + (a.toNat : Int)) s)) ∧
    (s.acVal ≠ 0 → s.base + a.toNat ≤ 1023 → s.mem.read (s.base + a.toNat) = Word.zero →
      exec (.divM a) s = .fault (.divideByZero s))

/-! ### Shifts -/

/-- R124 to R126, R16, D3, D11: opcode 20 doubles the accumulator's value and opcode 21 halves it toward minus infinity;
the view is the result modulo `2^40`, and where it faults they raise `ConstructionError`. -/
def Obligations.ShiftsDoubleAndHalve : Prop :=
  ∀ (x : Addr) (s : State),
    ∃ l r : Int, l = 2 * s.acVal ∧ 2 * r ≤ s.acVal ∧ s.acVal ≤ 2 * r + 1 ∧
      ∀ c ∈ [(Instr.lsh x, l), (Instr.rsh x, r)],
        (s.Viewable c.2 →
          ∃ w, w.val = c.2 % 2 ^ 40 ∧ exec c.1 s = .next { s with acVal := c.2, acView := w }) ∧
        (¬ s.Viewable c.2 → ViewFault s c.2 (exec c.1 s))

/-! ### Control transfer -/

/-- R108 to R111, D4, D6, D7, D32: an unconditional jump sets `PC` to the target word and discards the pending half; to a
right half it buffers that half of the target word, all-zero or not. A target above 1023 faults and writes nothing. -/
def Obligations.JumpsSetPcAndBuffer : Prop :=
  ∀ (a : Addr) (s : State),
    (s.base + a.toNat ≤ 1023 →
      exec (.jumpLeft a) s = .next { s with pc := s.base + a.toNat, ibr := none } ∧
      exec (.jumpRight a) s = .next { s with pc := s.base + a.toNat,
                                             ibr := some (s.mem.read (s.base + a.toNat)).right }) ∧
    (1023 < s.base + a.toNat →
      exec (.jumpLeft a) s = .fault (.memoryAccess ((s.base : Int) + (a.toNat : Int)) s) ∧
      exec (.jumpRight a) s = .fault (.memoryAccess ((s.base : Int) + (a.toNat : Int)) s))

/-- R112, R113, D4, D6, D7, D29: a conditional jump is taken exactly when `AC.val >= 0`, and then does what the
unconditional one does; not taken, it writes nothing and checks no target. -/
def Obligations.ConditionalJumpsTestTheSign : Prop :=
  ∀ (a : Addr) (s : State),
    (0 ≤ s.acVal → s.base + a.toNat ≤ 1023 →
      exec (.jumpPlusLeft a) s = .next { s with pc := s.base + a.toNat, ibr := none } ∧
      exec (.jumpPlusRight a) s = .next { s with pc := s.base + a.toNat,
                                                 ibr := some (s.mem.read (s.base + a.toNat)).right }) ∧
    (0 ≤ s.acVal → 1023 < s.base + a.toNat →
      exec (.jumpPlusLeft a) s = .fault (.memoryAccess ((s.base : Int) + (a.toNat : Int)) s) ∧
      exec (.jumpPlusRight a) s = .fault (.memoryAccess ((s.base : Int) + (a.toNat : Int)) s)) ∧
    (s.acVal < 0 → exec (.jumpPlusLeft a) s = .next s ∧ exec (.jumpPlusRight a) s = .next s)

/-- R108, R111, D4, D6: after a jump to a right half, the next step runs the instruction in that half of the target word,
without reading memory, and leaves `PC` one past the target before it executes. -/
def Obligations.RightJumpRunsTheTargetHalf : Prop :=
  ∀ (a : Addr) (s : State) (i : Instr), s.run = .running → s.base + a.toNat ≤ 1023 →
    let w := s.mem.read (s.base + a.toNat)
    decodeHalf w.right = .ok i →
      ∃ t, exec (.jumpRight a) s = .next t ∧
        step t = exec i { s with ir := w.rop, mar := w.raddr.toNat, ibr := none, pc := s.base + a.toNat + 1 }

/-! ### Stores -/

/-- R122, R39, D4, D27: opcode 33 stores the accumulator's view at `BASE + a` and changes nothing else. -/
def Obligations.StoreWholeWord : Prop :=
  ∀ (a : Addr) (s : State), s.base + a.toNat ≤ 1023 →
    ∃ t, exec (.storM a) s = .next t ∧ t = { s with mem := t.mem } ∧
      t.mem.read (eaForward s a).toNat = s.acView ∧
      ∀ b : Nat, (b : Int) ≠ eaForward s a → t.mem.read b = s.mem.read b

/-- R119 to R121, R40, R163, D4, D27: opcodes 18 and 19 overwrite one address field of the word at `BASE + a` with the
right-address field of the accumulator's view; the other three fields, the opcode fields among them, and every other word
and register stay. -/
def Obligations.StoreAddressFields : Prop :=
  ∀ (a : Addr) (s : State), s.base + a.toNat ≤ 1023 →
    (∃ t, exec (.storLeftAddr a) s = .next t ∧ t = { s with mem := t.mem } ∧
      t.mem.read (eaForward s a).toNat =
        { s.mem.read (eaForward s a).toNat with laddr := s.acView.raddr } ∧
      ∀ b : Nat, (b : Int) ≠ eaForward s a → t.mem.read b = s.mem.read b) ∧
    (∃ t, exec (.storRightAddr a) s = .next t ∧ t = { s with mem := t.mem } ∧
      t.mem.read (eaForward s a).toNat =
        { s.mem.read (eaForward s a).toNat with raddr := s.acView.raddr } ∧
      ∀ b : Nat, (b : Int) ≠ eaForward s a → t.mem.read b = s.mem.read b)

/-- R122, R90, R47, D4: a store of the accumulator and a load from the same address give `AC.val` modulo `2^40`, and the
view as it was. -/
def Obligations.StoreThenLoad : Prop :=
  ∀ (a : Addr) (s : State), s.ViewAgrees → s.base + a.toNat ≤ 1023 →
    ∃ t u, exec (.storM a) s = .next t ∧ exec (.loadM a) t = .next u ∧
      u.acVal = s.acVal % 2 ^ 40 ∧ u.acView = s.acView

/-! ### Faults -/

/-- R38 to R40, R141, D4, D5: every opcode with a forward operand and no condition on it faults for an address above 1023
and writes nothing. -/
def Obligations.ForwardOperandOutsideMemoryFaults : Prop :=
  ∀ (a : Addr) (s : State), 1023 < s.base + a.toNat →
    ∀ i ∈ [Instr.loadM a, .loadAbsM a, .addM a, .subM a, .addAbsM a, .subAbsM a, .loadMQM a, .mulM a, .jumpLeft a,
        .jumpRight a, .storLeftAddr a, .storRightAddr a, .storM a],
      exec i s = .fault (.memoryAccess ((s.base : Int) + (a.toNat : Int)) s)

/-- R141, D3, D4, D5, D10, D26: which instructions raise which fault, and on what condition: `ConstructionError` only opcodes 4
to 8, 10, 12, 20 and 21 under `VIEW_POLICY = fault`, for a value outside `0 .. 2^40-1`; `MemoryAccessError` only an opcode
with a memory operand or a target, for its effective address, outside `0 .. 1023`; `DivideByZeroError` only opcode 12, for a
zero accumulator or a zero word at `BASE + a`; `UnknownOpcodeError` none of the table. -/
def Obligations.EachFaultHasItsRaisers : Prop :=
  ∀ (i : Instr) (s : State),
    (∀ v l, exec i s = .fault (.constructionError v l) →
      s.params.viewPolicy = .fault ∧ i.opcode.toNat ∈ [4, 5, 6, 7, 8, 10, 12, 20, 21] ∧ ¬ (0 ≤ v ∧ v < 2 ^ 40)) ∧
    (∀ o l, exec i s ≠ .fault (.unknownOpcode o l)) ∧
    (∀ e l, exec i s = .fault (.memoryAccess e l) →
      i.opcode.toNat ∉ [10, 20, 21, 50] ∧ e = effectiveAddress i s ∧ ¬ (0 ≤ e ∧ e ≤ 1023)) ∧
    (∀ l, exec i s = .fault (.divideByZero l) →
      i = .divM i.addr ∧
        (s.acVal = 0 ∨
          s.base + i.addr.toNat ≤ 1023 ∧ s.mem.read (s.base + i.addr.toNat) = Word.zero))

/-- R86, R145, D33: a fault leaves the state the fetch left, with no partial write of the failing instruction, but for
the accumulator after a `ConstructionError` (free values, with the model's count of draws: log entry 3). That a fault
carries the state it leaves is the model's form (log entry 4). -/
def Obligations.FaultsArePrecise : Prop :=
  ∀ (s t : State) (f : Fault), s.run = .running → s.pc ≠ 1024 → fetch s = .next t → step s = .fault f →
    (f.code ≠ 1 → f.left = t) ∧ (f.code = 1 → t.SameButAC f.left)

/-- R81: a step goes on or faults; the model refuses no state. -/
def Obligations.NoStepIsRefused : Prop :=
  ∀ (s : State) (r : Refusal), step s ≠ .refused r

/-! ### The host's operations -/

/-- R150, R151, D18: set-base accepts `0 .. 1023`, writes `BASE` and `PC` and nothing else; any other base is rejected with
no change; get-base reads it back. -/
def Obligations.SetBaseMovesPc : Prop :=
  ∀ (b : Int) (s : State),
    (0 ≤ b ∧ b ≤ 1023 →
      setBase b s = (.ok, { s with base := b.toNat, pc := b.toNat }) ∧ (getBase (setBase b s).2 : Int) = b) ∧
    (¬ (0 ≤ b ∧ b ≤ 1023) → setBase b s = (.rejected, s))

/-- R82, D16: a bulk load that fits puts the k-th word at `BASE + k`, changes no other word and no register; one that does
not fit puts the words that fit and faults at address 1024. -/
def Obligations.BulkLoadCopiesTheSequence : Prop :=
  ∀ (ws : List Word) (s : State), s.base ≤ 1023 →
    (s.base + ws.length ≤ 1024 →
      ∃ t, bulkLoad ws s = .next t ∧ t = { s with mem := t.mem } ∧
        (∀ k, (h : k < ws.length) → t.mem.read (s.base + k) = ws[k]) ∧
        ∀ b, b < s.base ∨ s.base + ws.length ≤ b → t.mem.read b = s.mem.read b) ∧
    (1024 < s.base + ws.length →
      ∃ t, bulkLoad ws s = .fault (.memoryAccess 1024 t) ∧ t = { s with mem := t.mem } ∧
        (∀ k, (h : k < ws.length) → s.base + k < 1024 → t.mem.read (s.base + k) = ws[k]) ∧
        ∀ b, b < s.base → t.mem.read b = s.mem.read b)

/-- R84, D17, D34: a single step with `PC` at 1024 or above faults and stores nothing; otherwise it stores the word at `PC`
and runs exactly one cycle, of the pending half if there is one; a fault of the cycle is the step's, and the outcome is
`Halted` exactly when opcode 50 was in `IR` (the field `run` is the model's own, log entry 5). -/
def Obligations.SingleStepRunsOneCycle : Prop :=
  ∀ (w : Word) (s : State),
    (1023 < s.pc → singleStep w s = .fault (.memoryAccess s.pc s)) ∧
    (s.pc ≤ 1023 →
      let s' := { s with mem := s.mem.write s.pc w, run := .running }
      (∀ f, step s' = .fault f → singleStep w s = .fault f) ∧
      ∀ t, step s' = .next t →
        singleStep w s = .next { t with run := if t.ir = 0x32 then .halted else .stepped })

/-- R153, R154, D24, D30: the snapshot reads the registers; a memory range read gives the words of `lo .. hi` in order
where the range exists, and is refused otherwise. -/
def Obligations.HostReads : Prop :=
  ∀ (lo hi : Int) (s : State),
    snapshot s = ⟨s.acVal, s.acView, s.mq, s.mar, s.mbr, s.pc, s.ir, s.ibr⟩ ∧
    (0 ≤ lo ∧ lo ≤ hi ∧ hi ≤ 1023 →
      ∃ l, memRange lo hi s = some l ∧ (l.length : Int) = hi - lo + 1 ∧
        ∀ k : Nat, lo + k ≤ hi → l[k]? = some (lo.toNat + k, s.mem.read (lo.toNat + k))) ∧
    (¬ (0 ≤ lo ∧ lo ≤ hi ∧ hi ≤ 1023) → memRange lo hi s = none)

/-- R82, R83, R130, D13, D14: a bulk run ends with the load's fault if the load faults; otherwise it runs turns of the loop
from the `PC` and `IBR` it finds, also after a halt (the fuel and the field `run` are the model's own, log entries 5 and
11). -/
def Obligations.BulkRunGoesOnFromPcAndBuffer : Prop :=
  ∀ (n : Nat) (ws : List Word) (s : State),
    (∀ f, bulkLoad ws s = .fault f → bulkRun n ws s = .fault f) ∧
      (∀ t, bulkLoad ws s = .next t →
        t.pc = s.pc ∧ t.ibr = s.ibr ∧ bulkRun n ws s = runTurns n { t with run := .running })

/-- R140, R146, D20, D23: the four faults have the codes 1 to 4, and after a fault the host may start a run from the state
the fault left. That a fault carries this state (`left`) is the model's form (log entry 4), and the run's start (`resume`)
is said of the field `run`, the model's own (log entry 5). -/
def Obligations.FaultCodesAndResumption : Prop :=
  ∀ (s : State) (v e : Int) (o : Opcode),
    (Fault.constructionError v s).code = 1 ∧ (Fault.unknownOpcode o s).code = 2 ∧
      (Fault.memoryAccess e s).code = 3 ∧ (Fault.divideByZero s).code = 4 ∧
      ∀ f ∈ [Fault.constructionError v s, .unknownOpcode o s, .memoryAccess e s, .divideByZero s],
        f.left = s ∧ f.resume = { s with run := .running }
end

