-- ==== Sys2Proof/Laws/Memory.lean ====
section
/-! SUPPORT. The laws of the memory array: a read after a write, the canonical form, which every write keeps, and that
equal contents are equal data. -/

namespace Sys2Proof.Machine

@[simp] theorem Memory.read_nil (a : Nat) : Memory.read [] a = Word.zero := rfl

theorem Memory.read_cons (b : Nat) (w : Word) (m : Memory) (a : Nat) :
    Memory.read ((b, w) :: m) a = if a = b then w else m.read a := rfl

theorem Memory.read_erase (m : Memory) (a b : Nat) :
    (m.erase a).read b = if b = a then Word.zero else m.read b := by
  induction m with
  | nil => simp [Memory.erase]
  | cons c m ih =>
    obtain ⟨k, w⟩ := c
    simp only [Memory.erase]
    split
    · subst_vars; rw [ih, Memory.read_cons]; split <;> simp_all
    · simp only [Memory.read_cons, ih]; split <;> split <;> simp_all

theorem Memory.read_insert (m : Memory) (a b : Nat) (w : Word) (h : ∀ c ∈ m, c.1 ≠ a) :
    (m.insert a w).read b = if b = a then w else m.read b := by
  induction m with
  | nil => simp [Memory.insert, Memory.read_cons]
  | cons c m ih =>
    obtain ⟨k, v⟩ := c
    have hk : k ≠ a := h (k, v) (by simp)
    have ih := ih fun c hc => h c (by simp [hc])
    simp only [Memory.insert]
    split
    · simp [Memory.read_cons]
    · simp only [Memory.read_cons, ih]; split <;> split <;> simp_all

theorem Memory.erase_mem (m : Memory) (a : Nat) (c : Nat × Word) : c ∈ m.erase a ↔ c ∈ m ∧ c.1 ≠ a := by
  induction m with
  | nil => simp [Memory.erase]
  | cons d m ih =>
    obtain ⟨k, w⟩ := d
    simp only [Memory.erase]
    split
    · subst_vars
      rw [ih, List.mem_cons]
      constructor
      · exact fun h => ⟨.inr h.1, h.2⟩
      · rintro ⟨rfl | h, h'⟩
        · exact absurd rfl h'
        · exact ⟨h, h'⟩
    · rename_i hk
      rw [List.mem_cons, ih, List.mem_cons]
      constructor
      · rintro (rfl | h)
        · exact ⟨.inl rfl, Ne.symm hk⟩
        · exact ⟨.inr h.1, h.2⟩
      · rintro ⟨rfl | h, h'⟩
        · exact .inl rfl
        · exact .inr ⟨h, h'⟩

theorem Memory.insert_mem (m : Memory) (a : Nat) (w : Word) (c : Nat × Word) :
    c ∈ m.insert a w ↔ c = (a, w) ∨ c ∈ m := by
  induction m with
  | nil => simp [Memory.insert]
  | cons d m ih =>
    obtain ⟨k, v⟩ := d
    simp only [Memory.insert]
    split
    · simp
    · simp [ih, or_left_comm]

/-- A read gives the word last written to the address, and every other address reads as before (R44, R47). -/
theorem Memory.read_write (m : Memory) (a b : Nat) (w : Word) :
    (m.write a w).read b = if b = a then w else m.read b := by
  unfold Memory.write
  split
  · subst_vars; exact Memory.read_erase m a b
  · rw [Memory.read_insert _ _ _ _ fun c hc => ((Memory.erase_mem m a c).1 hc).2, Memory.read_erase]
    split <;> simp_all

@[simp] theorem Memory.read_write_same (m : Memory) (a : Nat) (w : Word) : (m.write a w).read a = w := by
  simp [Memory.read_write]

theorem Memory.read_write_other (m : Memory) (a b : Nat) (w : Word) (h : b ≠ a) :
    (m.write a w).read b = m.read b := by
  simp [Memory.read_write, h]

/-! ### The canonical form -/

theorem Memory.wf_nil : Memory.wf [] := by simp [Memory.wf]

theorem Memory.erase_wf (m : Memory) (a : Nat) (h : m.wf) : (m.erase a).wf := by
  refine ⟨?_, fun c hc => h.2 c ((Memory.erase_mem m a c).1 hc).1⟩
  have hs := h.1
  clear h
  induction m with
  | nil => simp [Memory.erase]
  | cons d m ih =>
    obtain ⟨k, w⟩ := d
    rw [List.pairwise_cons] at hs
    simp only [Memory.erase]
    split
    · exact ih hs.2
    · exact List.pairwise_cons.2 ⟨fun c hc => hs.1 c ((Memory.erase_mem m a c).1 hc).1, ih hs.2⟩

theorem Memory.insert_sorted (m : Memory) (a : Nat) (w : Word) (hs : m.Pairwise fun x y => x.1 < y.1)
    (h : ∀ c ∈ m, c.1 ≠ a) : (m.insert a w).Pairwise fun x y => x.1 < y.1 := by
  induction m with
  | nil => simp [Memory.insert]
  | cons d m ih =>
    obtain ⟨k, v⟩ := d
    rw [List.pairwise_cons] at hs
    have hk : k ≠ a := h (k, v) (by simp)
    simp only [Memory.insert]
    split
    · refine List.pairwise_cons.2 ⟨fun c hc => ?_, List.pairwise_cons.2 hs⟩
      rcases List.mem_cons.1 hc with rfl | hc
      · assumption
      · exact Nat.lt_trans ‹a < k› (hs.1 c hc)
    · refine List.pairwise_cons.2 ⟨fun c hc => ?_, ih hs.2 fun c hc => h c (by simp [hc])⟩
      rcases (Memory.insert_mem m a w c).1 hc with rfl | hc
      · show k < a
        omega
      · exact hs.1 c hc

/-- Every write to an address that exists keeps the canonical form. -/
theorem Memory.write_wf (m : Memory) (a : Nat) (w : Word) (h : m.wf) (ha : a < Config.memSize) : (m.write a w).wf := by
  have he := Memory.erase_wf m a h
  unfold Memory.write
  split
  · exact he
  · rename_i hw
    refine ⟨Memory.insert_sorted _ _ _ he.1 fun c hc => ((Memory.erase_mem m a c).1 hc).2, fun c hc => ?_⟩
    rcases (Memory.insert_mem _ a w c).1 hc with rfl | hc
    · exact ⟨hw, ha⟩
    · exact he.2 c hc

/-- In the canonical form, an address below every cell reads as the zero word. -/
theorem Memory.read_below (m : Memory) (a : Nat) (h : ∀ c ∈ m, a < c.1) : m.read a = Word.zero := by
  induction m with
  | nil => rfl
  | cons d m ih =>
    obtain ⟨k, v⟩ := d
    have hk : a < k := h (k, v) (by simp)
    rw [Memory.read_cons, if_neg (by omega)]
    exact ih fun c hc => h c (by simp [hc])

/-- Two memories in canonical form that read the same at every address are the same list. -/
theorem Memory.wf_ext (m n : Memory) (hm : m.wf) (hn : n.wf) (h : ∀ a, m.read a = n.read a) : m = n := by
  induction m generalizing n with
  | nil =>
    cases n with
    | nil => rfl
    | cons d n =>
      have := h d.1
      rw [Memory.read_cons, if_pos rfl] at this
      exact absurd this.symm (hn.2 d (by simp)).1
  | cons c m ih =>
    obtain ⟨hm1, hm2⟩ := hm
    rw [List.pairwise_cons] at hm1
    cases n with
    | nil =>
      have := h c.1
      rw [Memory.read_cons, if_pos rfl] at this
      exact absurd this (hm2 c (by simp)).1
    | cons d n =>
      obtain ⟨hn1, hn2⟩ := hn
      rw [List.pairwise_cons] at hn1
      obtain ⟨k, v⟩ := c
      obtain ⟨l, w⟩ := d
      have hv := (hm2 (k, v) (by simp)).1
      have hw := (hn2 (l, w) (by simp)).1
      have hk := h k
      have hl := h l
      simp only [Memory.read_cons, if_true] at hk hl
      obtain hlt | rfl | hgt := Nat.lt_trichotomy k l
      · rw [if_neg (by omega), Memory.read_below n k fun c hc => Nat.lt_trans hlt (hn1.1 c hc)] at hk
        exact absurd hk hv
      · simp only [if_true] at hk
        subst hk
        have ht : ∀ a, Memory.read m a = Memory.read n a := by
          intro a
          have ha := h a
          simp only [Memory.read_cons] at ha
          by_cases e : a = k
          · subst e
            rw [Memory.read_below m a hm1.1, Memory.read_below n a hn1.1]
          · simpa [e] using ha
        rw [ih n ⟨hm1.2, fun c hc => hm2 c (by simp [hc])⟩ ⟨hn1.2, fun c hc => hn2 c (by simp [hc])⟩ ht]
      · rw [if_neg (by omega), Memory.read_below m l fun c hc => Nat.lt_trans hgt (hm1.1 c hc)] at hl
        exact absurd hl.symm hw

end Sys2Proof.Machine
end

