-- ==== Sys2Proof/Laws/Ops.lean ====
section
/-! SUPPORT. What each shared operation can do, said once: when it answers a next state and which, when it faults and with
what, and that none refuses. Later proofs cite these lemmas instead of unfolding the operations. -/

namespace Sys2Proof.Machine

/-! ### Sequencing and raising -/

@[simp] theorem andThen_next_left (s : State) (k : State → Result) : andThen (.next s) k = k s := rfl
@[simp] theorem andThen_fault_left (f : Fault) (k : State → Result) : andThen (.fault f) k = .fault f := rfl

theorem andThen_next {o : Result} {k : State → Result} {t : State} :
    andThen o k = .next t ↔ ∃ s, o = .next s ∧ k s = .next t := by
  cases o <;> simp [andThen]

theorem andThen_fault {o : Result} {k : State → Result} {f : Fault} :
    andThen o k = .fault f ↔ o = .fault f ∨ ∃ s, o = .next s ∧ k s = .fault f := by
  cases o <;> simp [andThen]

theorem andThen_refused {o : Result} {k : State → Result} {r : Refusal} :
    andThen o k = .refused r ↔ o = .refused r ∨ ∃ s, o = .next s ∧ k s = .refused r := by
  cases o <;> simp [andThen]

theorem raise_eq (f : State → Fault) (s : State) : raise f s = .fault (f s) := rfl

/-! ### Access primitives -/

theorem memRead_in {ea : Int} (h : inMemory ea) (s : State) (k : Word → Result) :
    memRead ea s k = k (s.mem.read ea.toNat) := if_pos h

theorem memRead_out {ea : Int} (h : ¬ inMemory ea) (s : State) (k : Word → Result) :
    memRead ea s k = .fault (.memoryAccess ea s) := if_neg h

theorem memRead_next {ea : Int} {s t : State} {k : Word → Result} :
    memRead ea s k = .next t ↔ inMemory ea ∧ k (s.mem.read ea.toNat) = .next t := by
  by_cases h : inMemory ea
  · rw [memRead_in h]; exact ⟨fun e => ⟨h, e⟩, And.right⟩
  · rw [memRead_out h]; exact ⟨nofun, fun e => absurd e.1 h⟩

theorem memRead_fault {ea : Int} {s : State} {k : Word → Result} {f : Fault} :
    memRead ea s k = .fault f ↔
      (inMemory ea ∧ k (s.mem.read ea.toNat) = .fault f) ∨ (¬ inMemory ea ∧ f = .memoryAccess ea s) := by
  by_cases h : inMemory ea
  · rw [memRead_in h]
    exact ⟨fun e => .inl ⟨h, e⟩, fun e => e.elim And.right fun e => absurd h e.1⟩
  · rw [memRead_out h]
    refine ⟨fun e => .inr ⟨h, ?_⟩, fun e => ?_⟩
    · injection e with e
      exact e.symm
    · rcases e with e | e
      · exact absurd e.1 h
      · rw [e.2]

theorem memRead_refused {ea : Int} {s : State} {k : Word → Result} {r : Refusal} :
    memRead ea s k = .refused r ↔ inMemory ea ∧ k (s.mem.read ea.toNat) = .refused r := by
  by_cases h : inMemory ea
  · rw [memRead_in h]; exact ⟨fun e => ⟨h, e⟩, And.right⟩
  · rw [memRead_out h]; exact ⟨nofun, fun e => absurd e.1 h⟩

/-- Everything `MemWrite` can do (R39). -/
theorem memWrite_cases (ea : Int) (w : Word) (s : State) :
    (inMemory ea ∧ memWrite ea w s = .next { s with mem := s.mem.write ea.toNat w }) ∨
      (¬ inMemory ea ∧ memWrite ea w s = .fault (.memoryAccess ea s)) := by
  by_cases h : inMemory ea
  · exact .inl ⟨h, if_pos h⟩
  · exact .inr ⟨h, if_neg h⟩

/-- Everything `MemWriteField` can do (R40). -/
theorem memWriteField_cases (ea : Int) (f : AddrField) (v : Addr) (s : State) :
    (inMemory ea ∧ memWriteField ea f v s =
        .next { s with mem := s.mem.write ea.toNat (setField (s.mem.read ea.toNat) f v) }) ∨
      (¬ inMemory ea ∧ memWriteField ea f v s = .fault (.memoryAccess ea s)) := by
  by_cases h : inMemory ea
  · refine .inl ⟨h, ?_⟩
    rw [memWriteField, memRead_in h]
    exact if_pos h
  · exact .inr ⟨h, memRead_out h s _⟩

/-! ### The accumulator -/

/-- Everything `SetAC` can do (R16). -/
theorem setAC_cases (v : Int) (s : State) :
    (∃ w, viewOf s.params.viewPolicy v = some w ∧ setAC v s = .next { s with acVal := v, acView := w }) ∨
      (viewOf s.params.viewPolicy v = none ∧ setAC v s = .fault (.constructionError v (drawAC s))) := by
  unfold setAC
  cases h : viewOf s.params.viewPolicy v with
  | some w => exact .inl ⟨w, rfl, rfl⟩
  | none => exact .inr ⟨rfl, rfl⟩

/-- When a value has no view (R16). -/
theorem viewOf_eq_none {p : ViewPolicy} {v : Int} :
    viewOf p v = none ↔ p = .fault ∧ ¬ (0 ≤ v ∧ v < 2 ^ 40) := by
  unfold viewOf
  split
  · exact ⟨nofun, fun e => absurd ‹_› e.2⟩
  · cases p
    · exact ⟨nofun, nofun⟩
    · exact ⟨fun _ => ⟨rfl, ‹_›⟩, fun _ => rfl⟩

theorem viewOf_in_range (p : ViewPolicy) {v : Int} (h : 0 ≤ v ∧ v < 2 ^ 40) :
    viewOf p v = some (Word.unpack (.ofNat 40 v.toNat)) := if_pos h

/-! ### Operands -/

theorem operandVal_in {ea : Int} (h : inMemory ea) (s : State) (k : Int → Result) :
    operandVal ea s k = k (s.mem.read ea.toNat).val := memRead_in h s _

theorem operandVal_out {ea : Int} (h : ¬ inMemory ea) (s : State) (k : Int → Result) :
    operandVal ea s k = .fault (.memoryAccess ea s) := memRead_out h s _

theorem operandAbs_in {ea : Int} (h : inMemory ea) (s : State) (k : Int → Result) :
    operandAbs ea s k = k |(s.mem.read ea.toNat).val| := by
  rw [operandAbs, operandVal_in h, Int.abs_eq_natAbs]

theorem operandAbs_out {ea : Int} (h : ¬ inMemory ea) (s : State) (k : Int → Result) :
    operandAbs ea s k = .fault (.memoryAccess ea s) := operandVal_out h s _

/-- The forward address exists exactly when it is at most 1023 (R37). -/
theorem inMemory_eaForward (s : State) (a : Addr) : inMemory (eaForward s a) ↔ s.base + a.toNat ≤ 1023 := by
  simp only [inMemory, eaForward, Config.memSize]
  omega

theorem eaForward_toNat (s : State) (a : Addr) : (eaForward s a).toNat = s.base + a.toNat := by
  simp only [eaForward]
  omega

/-- The backward address exists exactly when the offset is at most the base and the difference is at most 1023 (R37). -/
theorem inMemory_eaBackward (s : State) (a : Addr) :
    inMemory (eaBackward s a) ↔ a.toNat ≤ s.base ∧ s.base - a.toNat ≤ 1023 := by
  simp only [inMemory, eaBackward, Config.memSize]
  omega

theorem eaBackward_toNat (s : State) (a : Addr) : (eaBackward s a).toNat = s.base - a.toNat := by
  simp only [eaBackward]
  omega

/-! ### Control transfer -/

/-- Everything a jump to a left half can do (R108). -/
theorem goLeft_cases (t : Int) (s : State) :
    (inMemory t ∧ goLeft t s = .next { s with pc := t.toNat, ibr := none }) ∨
      (¬ inMemory t ∧ goLeft t s = .fault (.memoryAccess t s)) := by
  by_cases h : inMemory t
  · exact .inl ⟨h, if_pos h⟩
  · exact .inr ⟨h, if_neg h⟩

/-- Everything a jump to a right half can do (R108). -/
theorem goRight_cases (t : Int) (s : State) :
    (inMemory t ∧ goRight t s = .next { s with pc := t.toNat, ibr := some (s.mem.read t.toNat).right }) ∨
      (¬ inMemory t ∧ goRight t s = .fault (.memoryAccess t s)) := by
  by_cases h : inMemory t
  · exact .inl ⟨h, memRead_in h s _⟩
  · exact .inr ⟨h, memRead_out h s _⟩

end Sys2Proof.Machine
end

