-- ==== Sys2Proof/Laws/Cycle.lean ====
section
/-! SUPPORT. What a fetch, a cycle and a step can do, said once. -/

namespace Sys2Proof.Machine

/-- Everything a fetch that reads memory does with the word it read (R76 to R78). -/
theorem fetchWord_cases (w : Word) (s : State) :
    (w.left = Half.zero ∧ fetchWord w s = { take w.right s with pc := s.pc + 1 }) ∨
      (w.left ≠ Half.zero ∧ w.right = Half.zero ∧ fetchWord w s = { take w.left s with pc := s.pc + 1 }) ∨
      (w.left ≠ Half.zero ∧ w.right ≠ Half.zero ∧ fetchWord w s = { take w.left s with ibr := some w.right }) := by
  unfold fetchWord
  by_cases hl : w.left = Half.zero
  · exact .inl ⟨hl, if_pos hl⟩
  · by_cases hr : w.right = Half.zero
    · exact .inr (.inl ⟨hl, hr, by simp [hl, hr]⟩)
    · exact .inr (.inr ⟨hl, hr, by simp [hl, hr]⟩)

/-- Everything Fetch can do (R74, R75). -/
theorem fetch_cases (s : State) :
    (∃ h, s.ibr = some h ∧ fetch s = .next (fetchBuffered h s)) ∨
      (s.ibr = none ∧ s.pc < Config.memSize ∧
        fetch s = .next (fetchWord (s.mem.read s.pc) { s with mar := s.pc, mbr := s.mem.read s.pc })) ∨
      (s.ibr = none ∧ Config.memSize ≤ s.pc ∧ fetch s = .fault (.memoryAccess s.pc { s with mar := s.pc })) := by
  obtain hi | ⟨h, hi⟩ := Option.eq_none_or_eq_some s.ibr
  · have hf : fetch s = fetchMemory s := by simp only [fetch, hi]
    right
    by_cases hp : s.pc < Config.memSize
    · exact .inl ⟨hi, hp, hf.trans (memRead_in (by simp only [inMemory]; omega) _ _)⟩
    · exact .inr ⟨hi, by omega, hf.trans (memRead_out (by simp only [inMemory]; omega) _ _)⟩
  · exact .inl ⟨h, hi, by simp only [fetch, hi]⟩

/-- Everything Execute can do (R79). -/
theorem execute_cases (s : State) :
    (∃ i, decodeHalf ⟨s.ir, .ofNat 12 s.mar⟩ = .ok i ∧ execute s = exec i s) ∨
      (∃ op, decodeHalf ⟨s.ir, .ofNat 12 s.mar⟩ = .error (.unallocated op) ∧
        execute s = .fault (.unknownOpcode op s)) := by
  unfold execute
  cases h : decodeHalf ⟨s.ir, .ofNat 12 s.mar⟩ with
  | ok i => exact .inl ⟨i, rfl, rfl⟩
  | error e => cases e with | unallocated op => exact .inr ⟨op, rfl, rfl⟩

/-- Everything a step can do (R73, R83). -/
theorem step_cases (s : State) :
    (s.run = .running ∧ s.pc = Config.memSize ∧ step s = .next { s with run := .completed }) ∨
      (s.run = .running ∧ s.pc ≠ Config.memSize ∧ step s = cycle s) ∨
      (s.run ≠ .running ∧ step s = .next s) := by
  unfold step runTurn
  cases hr : s.run with
  | running =>
    by_cases hp : s.pc = Config.memSize
    · exact .inl ⟨rfl, hp, by simp [hp]⟩
    · exact .inr (.inl ⟨rfl, hp, by simp [hp]⟩)
  | halted => exact .inr (.inr ⟨by simp, rfl⟩)
  | completed => exact .inr (.inr ⟨by simp, rfl⟩)
  | stepped => exact .inr (.inr ⟨by simp, rfl⟩)

end Sys2Proof.Machine
end

