-- ==== Sys2Proof/Laws/Exec.lean ====
section
/-! SUPPORT. Each instruction's meaning as an expression over the shared operations, so that a proof rewrites with it and
cites the operations' laws instead of unfolding the meanings. -/

namespace Sys2Proof.Machine

theorem exec_loadM (a : Addr) (s : State) :
    exec (.loadM a) s = operandVal (eaForward s a) s fun v => setAC v s := rfl

theorem exec_loadBackM (a : Addr) (s : State) :
    exec (.loadBackM a) s = operandVal (eaBackward s a) s fun v => setAC v s := rfl

theorem exec_loadAbsM (a : Addr) (s : State) :
    exec (.loadAbsM a) s = operandAbs (eaForward s a) s fun v => setAC v s := rfl

theorem exec_loadNegAbsM (a : Addr) (s : State) :
    exec (.loadNegAbsM a) s = operandAbs (eaBackward s a) s fun v => setAC (-v) s := rfl

theorem exec_addM (a : Addr) (s : State) :
    exec (.addM a) s = operandVal (eaForward s a) s fun v => setAC (s.acVal + v) s := rfl

theorem exec_subM (a : Addr) (s : State) :
    exec (.subM a) s = operandVal (eaForward s a) s fun v => setAC (s.acVal - v) s := rfl

theorem exec_addAbsM (a : Addr) (s : State) :
    exec (.addAbsM a) s = operandAbs (eaForward s a) s fun v => setAC (s.acVal + v) s := rfl

theorem exec_subAbsM (a : Addr) (s : State) :
    exec (.subAbsM a) s = operandAbs (eaForward s a) s fun v => setAC (s.acVal - v) s := rfl

theorem exec_loadMQM (a : Addr) (s : State) :
    exec (.loadMQM a) s = operandVal (eaForward s a) s fun v => .next (setMQ v s) := rfl

theorem exec_loadMQ (x : Addr) (s : State) :
    exec (.loadMQ x) s = setAC s.mq s := rfl

theorem exec_mulM (a : Addr) (s : State) :
    exec (.mulM a) s = operandVal (eaForward s a) s fun v =>
      andThen (setAC (productHigh (s.mq * v)) s) fun t => .next (setMQ (productLow (s.mq * v)) t) := rfl

theorem exec_divM (a : Addr) (s : State) :
    exec (.divM a) s = if s.acVal = 0 then raise .divideByZero s else operandVal (eaForward s a) s fun d =>
      if d = 0 then raise .divideByZero s
      else andThen (setAC (s.acVal - quotient s.params.divRounding s.acVal d * d) s)
        fun t => .next (setMQ (quotient s.params.divRounding s.acVal d) t) := rfl

theorem exec_jumpLeft (a : Addr) (s : State) :
    exec (.jumpLeft a) s = goLeft (eaForward s a) s := rfl

theorem exec_jumpRight (a : Addr) (s : State) :
    exec (.jumpRight a) s = goRight (eaForward s a) s := rfl

theorem exec_jumpPlusLeft (a : Addr) (s : State) :
    exec (.jumpPlusLeft a) s = if acNonneg s then goLeft (eaForward s a) s else .next s := rfl

theorem exec_jumpPlusRight (a : Addr) (s : State) :
    exec (.jumpPlusRight a) s = if acNonneg s then goRight (eaForward s a) s else .next s := rfl

theorem exec_storLeftAddr (a : Addr) (s : State) :
    exec (.storLeftAddr a) s = memWriteField (eaForward s a) .laddr s.acView.raddr s := rfl

theorem exec_storRightAddr (a : Addr) (s : State) :
    exec (.storRightAddr a) s = memWriteField (eaForward s a) .raddr s.acView.raddr s := rfl

theorem exec_lsh (x : Addr) (s : State) :
    exec (.lsh x) s = setAC (s.acVal * 2) s := rfl

theorem exec_rsh (x : Addr) (s : State) :
    exec (.rsh x) s = setAC (s.acVal.fdiv 2) s := rfl

theorem exec_storM (a : Addr) (s : State) :
    exec (.storM a) s = memWrite (eaForward s a) s.acView s := rfl

theorem exec_hlt (x : Addr) (s : State) :
    exec (.hlt x) s = .next { s with run := .halted } := rfl

/-! ### Everything an instruction can do -/

theorem word_val_range (w : Word) : 0 ≤ w.val ∧ w.val < 2 ^ 40 := by
  have h := w.pack.isLt
  simp only [Word.val]
  omega

/-- The shapes of an instruction's outcome: what it writes, or where it stops, and which opcodes can do so. -/
inductive Shape (i : Instr) (s : State) : Result → Prop where
  /-- The accumulator is set to a value that is a word's value. -/
  | load (v : Int) (hi : i.opcode.toNat ∈ [1, 2, 3]) (hv : 0 ≤ v ∧ v < 2 ^ 40) : Shape i s (setAC v s)
  /-- The accumulator is set to any value. -/
  | compute (v : Int) (hi : i.opcode.toNat ∈ [4, 5, 6, 7, 8, 10, 20, 21]) : Shape i s (setAC v s)
  /-- The accumulator takes a 20-bit field, and `MQ` is set. -/
  | multiply (v q : Int) (hi : i.opcode.toNat = 11) (hv : 0 ≤ v ∧ v < 2 ^ 40) :
      Shape i s (andThen (setAC v s) fun t => .next (setMQ q t))
  /-- The accumulator and then `MQ` are set. -/
  | divide (v q : Int) (hi : i.opcode.toNat = 12) : Shape i s (andThen (setAC v s) fun t => .next (setMQ q t))
  /-- `MQ` is set. -/
  | setMQ (v : Int) (hi : i.opcode.toNat = 9) : Shape i s (.next (setMQ v s))
  /-- Control goes to the left half of an existing word. -/
  | left (t : Int) (hi : i.opcode.toNat ∈ [13, 15]) (ht : inMemory t) :
      Shape i s (.next { s with pc := t.toNat, ibr := none })
  /-- Control goes to the right half of an existing word. -/
  | right (t : Int) (hi : i.opcode.toNat ∈ [14, 16]) (ht : inMemory t) :
      Shape i s (.next { s with pc := t.toNat, ibr := some (s.mem.read t.toNat).right })
  /-- A conditional jump is not taken. -/
  | stay (hi : i.opcode.toNat ∈ [15, 16]) : Shape i s (.next s)
  /-- An existing word is written. -/
  | store (ea : Int) (w : Word) (hi : i.opcode.toNat ∈ [18, 19, 33]) (ha : storeAddress i s = some ea)
      (he : inMemory ea) : Shape i s (.next { s with mem := s.mem.write ea.toNat w })
  /-- The run ends. -/
  | halt (hi : i.opcode.toNat = 50) : Shape i s (.next { s with run := .halted })
  /-- An address does not exist. -/
  | outside (ea : Int) (hi : i.opcode.toNat ∉ [10, 20, 21, 50]) (ha : ea = effectiveAddress i s)
      (he : ¬ inMemory ea) : Shape i s (.fault (.memoryAccess ea s))
  /-- The dividend, or the divisor at an existing address, is zero. -/
  | divideByZero (a : Addr) (hi : i = .divM a)
      (hz : s.acVal = 0 ∨ (inMemory (eaForward s a) ∧ (s.mem.read (eaForward s a).toNat).val = 0)) :
      Shape i s (.fault (.divideByZero s))

theorem shape_operandVal {i : Instr} {s : State} {k : Int → Result} (ea : Int) (hi : i.opcode.toNat ∉ [10, 20, 21, 50])
    (ha : ea = effectiveAddress i s)
    (hk : inMemory ea → ∀ w : Word, w = s.mem.read ea.toNat → Shape i s (k w.val)) : Shape i s (operandVal ea s k) := by
  by_cases h : inMemory ea
  · rw [operandVal_in h]; exact hk h _ rfl
  · rw [operandVal_out h]; exact .outside ea hi ha h

theorem shape_operandAbs {i : Instr} {s : State} {k : Int → Result} (ea : Int) (hi : i.opcode.toNat ∉ [10, 20, 21, 50])
    (ha : ea = effectiveAddress i s) (hk : ∀ w : Word, Shape i s (k w.val)) : Shape i s (operandAbs ea s k) := by
  by_cases h : inMemory ea
  · rw [operandAbs_in h, abs_of_nonneg (word_val_range _).1]; exact hk _
  · rw [operandAbs_out h]; exact .outside ea hi ha h

theorem shape_goLeft {i : Instr} {s : State} (t : Int) (hi : i.opcode.toNat ∈ [13, 15])
    (ha : t = effectiveAddress i s) : Shape i s (goLeft t s) := by
  rcases goLeft_cases t s with ⟨ht, e⟩ | ⟨ht, e⟩ <;> rw [e]
  · exact .left t hi ht
  · exact .outside t (by revert hi; simp; omega) ha ht

theorem shape_goRight {i : Instr} {s : State} (t : Int) (hi : i.opcode.toNat ∈ [14, 16])
    (ha : t = effectiveAddress i s) : Shape i s (goRight t s) := by
  rcases goRight_cases t s with ⟨ht, e⟩ | ⟨ht, e⟩ <;> rw [e]
  · exact .right t hi ht
  · exact .outside t (by revert hi; simp; omega) ha ht

theorem shape_field {i : Instr} {s : State} (ea : Int) (f : AddrField) (v : Addr)
    (hi : i.opcode.toNat ∈ [18, 19, 33]) (hs : storeAddress i s = some ea) (ha : ea = effectiveAddress i s) :
    Shape i s (memWriteField ea f v s) := by
  rcases memWriteField_cases ea f v s with ⟨he, e⟩ | ⟨he, e⟩ <;> rw [e]
  · exact .store ea _ hi hs he
  · exact .outside ea (by revert hi; simp; omega) ha he

/-- Everything an instruction can do. -/
theorem exec_shape (i : Instr) (s : State) : Shape i s (exec i s) := by
  cases i with
  | loadM a => rw [exec_loadM]; exact shape_operandVal _ (by simp [Instr.opcode]) rfl fun _ w _ => .load _ (by simp [Instr.opcode]) (word_val_range w)
  | loadBackM a => rw [exec_loadBackM]; exact shape_operandVal _ (by simp [Instr.opcode]) rfl fun _ w _ => .load _ (by simp [Instr.opcode]) (word_val_range w)
  | loadAbsM a => rw [exec_loadAbsM]; exact shape_operandAbs _ (by simp [Instr.opcode]) rfl fun w => .load _ (by simp [Instr.opcode]) (word_val_range w)
  | loadNegAbsM a => rw [exec_loadNegAbsM]; exact shape_operandAbs _ (by simp [Instr.opcode]) rfl fun w => .compute _ (by simp [Instr.opcode])
  | addM a => rw [exec_addM]; exact shape_operandVal _ (by simp [Instr.opcode]) rfl fun _ w _ => .compute _ (by simp [Instr.opcode])
  | subM a => rw [exec_subM]; exact shape_operandVal _ (by simp [Instr.opcode]) rfl fun _ w _ => .compute _ (by simp [Instr.opcode])
  | addAbsM a => rw [exec_addAbsM]; exact shape_operandAbs _ (by simp [Instr.opcode]) rfl fun w => .compute _ (by simp [Instr.opcode])
  | subAbsM a => rw [exec_subAbsM]; exact shape_operandAbs _ (by simp [Instr.opcode]) rfl fun w => .compute _ (by simp [Instr.opcode])
  | loadMQM a => rw [exec_loadMQM]; exact shape_operandVal _ (by simp [Instr.opcode]) rfl fun _ w _ => .setMQ _ (by simp [Instr.opcode])
  | loadMQ x => rw [exec_loadMQ]; exact .compute _ (by simp [Instr.opcode])
  | mulM a =>
    rw [exec_mulM]
    refine shape_operandVal _ (by simp [Instr.opcode]) rfl fun _ w _ => .multiply _ _ (by simp [Instr.opcode]) ?_
    have h0 := Int.emod_nonneg ((s.mq * w.val).fdiv (2 ^ 20)) (b := 2 ^ 20) (by norm_num)
    have h1 := Int.emod_lt_of_pos ((s.mq * w.val).fdiv (2 ^ 20)) (b := 2 ^ 20) (by norm_num)
    exact ⟨h0, h1.trans (by norm_num)⟩
  | divM a =>
    rw [exec_divM]
    split
    · exact .divideByZero a rfl (.inl ‹_›)
    · refine shape_operandVal _ (by simp [Instr.opcode]) rfl fun h w hw => ?_
      split
      · exact .divideByZero a rfl (.inr ⟨h, hw ▸ ‹_›⟩)
      · exact .divide _ _ (by simp [Instr.opcode])
  | jumpLeft a => rw [exec_jumpLeft]; exact shape_goLeft _ (by simp [Instr.opcode]) rfl
  | jumpRight a => rw [exec_jumpRight]; exact shape_goRight _ (by simp [Instr.opcode]) rfl
  | jumpPlusLeft a =>
    rw [exec_jumpPlusLeft]
    split
    · exact shape_goLeft _ (by simp [Instr.opcode]) rfl
    · exact .stay (by simp [Instr.opcode])
  | jumpPlusRight a =>
    rw [exec_jumpPlusRight]
    split
    · exact shape_goRight _ (by simp [Instr.opcode]) rfl
    · exact .stay (by simp [Instr.opcode])
  | storLeftAddr a => rw [exec_storLeftAddr]; exact shape_field _ _ _ (by simp [Instr.opcode]) rfl rfl
  | storRightAddr a => rw [exec_storRightAddr]; exact shape_field _ _ _ (by simp [Instr.opcode]) rfl rfl
  | lsh x => rw [exec_lsh]; exact .compute _ (by simp [Instr.opcode])
  | rsh x => rw [exec_rsh]; exact .compute _ (by simp [Instr.opcode])
  | storM a =>
    rw [exec_storM]
    rcases memWrite_cases (eaForward s a) s.acView s with ⟨he, e⟩ | ⟨he, e⟩ <;> rw [e]
    · exact .store _ _ (by simp [Instr.opcode]) rfl he
    · exact .outside _ (by simp [Instr.opcode]) rfl he
  | hlt x => rw [exec_hlt]; exact .halt (by simp [Instr.opcode])

end Sys2Proof.Machine
end

