-- ==== Sys2Proof/Laws/Host.lean ====
section
/-! SUPPORT. What each host call can do, said once. -/

namespace Sys2Proof.Machine

/-! ### The host calls, by name -/

@[simp] theorem hostCall_setBase (b : Int) (s : State) : hostCall (.setBase b) s = .next (setBase b s).2 := rfl
@[simp] theorem hostCall_registerReset (s : State) : hostCall .registerReset s = .next (registerReset s) := rfl
@[simp] theorem hostCall_fullReset (s : State) : hostCall .fullReset s = .next (fullReset s) := rfl
@[simp] theorem hostCall_bulkLoad (ws : List Word) (s : State) : hostCall (.bulkLoad ws) s = bulkLoad ws s := rfl
@[simp] theorem hostCall_bulkRun (n : Nat) (ws : List Word) (s : State) :
    hostCall (.bulkRun n ws) s = bulkRun n ws s := rfl
@[simp] theorem hostCall_singleStep (w : Word) (s : State) : hostCall (.singleStep w) s = singleStep w s := rfl

/-! ### What they can do -/

/-- Everything set-base can do (R150). -/
theorem setBase_cases (b : Int) (s : State) :
    (inMemory b ∧ setBase b s = (.ok, { s with base := b.toNat, pc := b.toNat })) ∨
      (¬ inMemory b ∧ setBase b s = (.rejected, s)) := by
  by_cases h : inMemory b
  · exact .inl ⟨h, if_pos h⟩
  · exact .inr ⟨h, if_neg h⟩

/-- The end of a single step writes the field `run` alone. -/
theorem endStep_eq (s : State) :
    endStep s = .next { s with run := if s.run = .halted then .halted else .stepped } := by
  obtain ⟨_, _, _, _, _, _, _, _, _, _, _, r, _⟩ := s
  cases r <;> rfl

/-- A bulk load of one word more (R82). -/
theorem bulkLoadFrom_cons (i : Nat) (w : Word) (ws : List Word) (s : State) :
    bulkLoadFrom i (w :: ws) s =
      andThen (memWrite ((s.base : Int) + (i : Int)) w s) (bulkLoadFrom (i + 1) ws) := rfl

/-- One turn more of the run's loop (R83). -/
theorem runTurns_succ (n : Nat) (s : State) : runTurns (n + 1) s = andThen (step s) (runTurns n) := rfl

/-- A single step, where `PC` lies inside and outside the memory (R84). -/
theorem singleStep_cases (w : Word) (s : State) :
    (s.pc < Config.memSize ∧
        singleStep w s = andThen (cycle (startRun { s with mem := s.mem.write s.pc w })) endStep) ∨
      (Config.memSize ≤ s.pc ∧ singleStep w s = .fault (.memoryAccess s.pc s)) := by
  rcases memWrite_cases s.pc w s with ⟨h, e⟩ | ⟨h, e⟩
  · exact .inl ⟨by simp only [inMemory] at h; omega, by rw [singleStep, e]; rfl⟩
  · exact .inr ⟨by simp only [inMemory] at h; omega, by rw [singleStep, e]; rfl⟩

end Sys2Proof.Machine
end

