-- ==== Sys2Proof/Laws/PerInstr.lean ====
section
/-! SUPPORT. Statements made per instruction: the decoder reads back every half-instruction that the encoder writes, with
every address field (30_encoding.md R59, R61, R63). -/

namespace Sys2Proof.Laws

/-- The half that encodes the instruction decodes to it, and the instruction is well-formed. -/
def RoundTrip.Statement (i : Instr) : Prop := i.wf = true ∧ decodeHalf (encodeHalf i) = .ok i

/-- A 12-bit field fits 12 bits. -/
theorem fitsBits_addr (a : Addr) : fitsBits 12 a.toNat = true := by
  have h := a.isLt
  simp only [fitsBits, Bool.and_eq_true, decide_eq_true_eq]
  omega

theorem RoundTrip.loadM (a : Addr) : RoundTrip.Statement (.loadM a) := ⟨fitsBits_addr a, rfl⟩
theorem RoundTrip.loadBackM (a : Addr) : RoundTrip.Statement (.loadBackM a) := ⟨fitsBits_addr a, rfl⟩
theorem RoundTrip.loadAbsM (a : Addr) : RoundTrip.Statement (.loadAbsM a) := ⟨fitsBits_addr a, rfl⟩
theorem RoundTrip.loadNegAbsM (a : Addr) : RoundTrip.Statement (.loadNegAbsM a) := ⟨fitsBits_addr a, rfl⟩
theorem RoundTrip.addM (a : Addr) : RoundTrip.Statement (.addM a) := ⟨fitsBits_addr a, rfl⟩
theorem RoundTrip.subM (a : Addr) : RoundTrip.Statement (.subM a) := ⟨fitsBits_addr a, rfl⟩
theorem RoundTrip.addAbsM (a : Addr) : RoundTrip.Statement (.addAbsM a) := ⟨fitsBits_addr a, rfl⟩
theorem RoundTrip.subAbsM (a : Addr) : RoundTrip.Statement (.subAbsM a) := ⟨fitsBits_addr a, rfl⟩
theorem RoundTrip.loadMQM (a : Addr) : RoundTrip.Statement (.loadMQM a) := ⟨fitsBits_addr a, rfl⟩
theorem RoundTrip.loadMQ (x : Addr) : RoundTrip.Statement (.loadMQ x) := ⟨fitsBits_addr x, rfl⟩
theorem RoundTrip.mulM (a : Addr) : RoundTrip.Statement (.mulM a) := ⟨fitsBits_addr a, rfl⟩
theorem RoundTrip.divM (a : Addr) : RoundTrip.Statement (.divM a) := ⟨fitsBits_addr a, rfl⟩
theorem RoundTrip.jumpLeft (a : Addr) : RoundTrip.Statement (.jumpLeft a) := ⟨fitsBits_addr a, rfl⟩
theorem RoundTrip.jumpRight (a : Addr) : RoundTrip.Statement (.jumpRight a) := ⟨fitsBits_addr a, rfl⟩
theorem RoundTrip.jumpPlusLeft (a : Addr) : RoundTrip.Statement (.jumpPlusLeft a) := ⟨fitsBits_addr a, rfl⟩
theorem RoundTrip.jumpPlusRight (a : Addr) : RoundTrip.Statement (.jumpPlusRight a) := ⟨fitsBits_addr a, rfl⟩
theorem RoundTrip.storLeftAddr (a : Addr) : RoundTrip.Statement (.storLeftAddr a) := ⟨fitsBits_addr a, rfl⟩
theorem RoundTrip.storRightAddr (a : Addr) : RoundTrip.Statement (.storRightAddr a) := ⟨fitsBits_addr a, rfl⟩
theorem RoundTrip.lsh (x : Addr) : RoundTrip.Statement (.lsh x) := ⟨fitsBits_addr x, rfl⟩
theorem RoundTrip.rsh (x : Addr) : RoundTrip.Statement (.rsh x) := ⟨fitsBits_addr x, rfl⟩
theorem RoundTrip.storM (a : Addr) : RoundTrip.Statement (.storM a) := ⟨fitsBits_addr a, rfl⟩
theorem RoundTrip.hlt (x : Addr) : RoundTrip.Statement (.hlt x) := ⟨fitsBits_addr x, rfl⟩

end Sys2Proof.Laws
end

