-- ==== Sys2Proof/Laws/State.lean ====
section
/-! SUPPORT. The state updates, field by field: one lemma per field per named update, each true by unfolding. -/

namespace Sys2Proof.Machine

/-! ### setMQ -/

@[simp] theorem setMQ_mem (v : Int) (s : State) : (setMQ v s).mem = s.mem := rfl
@[simp] theorem setMQ_acVal (v : Int) (s : State) : (setMQ v s).acVal = s.acVal := rfl
@[simp] theorem setMQ_acView (v : Int) (s : State) : (setMQ v s).acView = s.acView := rfl
@[simp] theorem setMQ_mq (v : Int) (s : State) : (setMQ v s).mq = v := rfl
@[simp] theorem setMQ_mar (v : Int) (s : State) : (setMQ v s).mar = s.mar := rfl
@[simp] theorem setMQ_mbr (v : Int) (s : State) : (setMQ v s).mbr = s.mbr := rfl
@[simp] theorem setMQ_pc (v : Int) (s : State) : (setMQ v s).pc = s.pc := rfl
@[simp] theorem setMQ_ir (v : Int) (s : State) : (setMQ v s).ir = s.ir := rfl
@[simp] theorem setMQ_ibr (v : Int) (s : State) : (setMQ v s).ibr = s.ibr := rfl
@[simp] theorem setMQ_base (v : Int) (s : State) : (setMQ v s).base = s.base := rfl
@[simp] theorem setMQ_params (v : Int) (s : State) : (setMQ v s).params = s.params := rfl
@[simp] theorem setMQ_run (v : Int) (s : State) : (setMQ v s).run = s.run := rfl
@[simp] theorem setMQ_draws (v : Int) (s : State) : (setMQ v s).draws = s.draws := rfl

/-! ### drawAC -/

@[simp] theorem drawAC_mem (s : State) : (drawAC s).mem = s.mem := rfl
@[simp] theorem drawAC_acVal (s : State) : (drawAC s).acVal = Config.freeAcVal s.draws := rfl
@[simp] theorem drawAC_acView (s : State) : (drawAC s).acView = Config.freeAcView s.draws := rfl
@[simp] theorem drawAC_mq (s : State) : (drawAC s).mq = s.mq := rfl
@[simp] theorem drawAC_mar (s : State) : (drawAC s).mar = s.mar := rfl
@[simp] theorem drawAC_mbr (s : State) : (drawAC s).mbr = s.mbr := rfl
@[simp] theorem drawAC_pc (s : State) : (drawAC s).pc = s.pc := rfl
@[simp] theorem drawAC_ir (s : State) : (drawAC s).ir = s.ir := rfl
@[simp] theorem drawAC_ibr (s : State) : (drawAC s).ibr = s.ibr := rfl
@[simp] theorem drawAC_base (s : State) : (drawAC s).base = s.base := rfl
@[simp] theorem drawAC_params (s : State) : (drawAC s).params = s.params := rfl
@[simp] theorem drawAC_run (s : State) : (drawAC s).run = s.run := rfl
@[simp] theorem drawAC_draws (s : State) : (drawAC s).draws = s.draws + 1 := rfl

/-! ### startRun -/

@[simp] theorem startRun_mem (s : State) : (startRun s).mem = s.mem := rfl
@[simp] theorem startRun_acVal (s : State) : (startRun s).acVal = s.acVal := rfl
@[simp] theorem startRun_acView (s : State) : (startRun s).acView = s.acView := rfl
@[simp] theorem startRun_mq (s : State) : (startRun s).mq = s.mq := rfl
@[simp] theorem startRun_mar (s : State) : (startRun s).mar = s.mar := rfl
@[simp] theorem startRun_mbr (s : State) : (startRun s).mbr = s.mbr := rfl
@[simp] theorem startRun_pc (s : State) : (startRun s).pc = s.pc := rfl
@[simp] theorem startRun_ir (s : State) : (startRun s).ir = s.ir := rfl
@[simp] theorem startRun_ibr (s : State) : (startRun s).ibr = s.ibr := rfl
@[simp] theorem startRun_base (s : State) : (startRun s).base = s.base := rfl
@[simp] theorem startRun_params (s : State) : (startRun s).params = s.params := rfl
@[simp] theorem startRun_run (s : State) : (startRun s).run = .running := rfl
@[simp] theorem startRun_draws (s : State) : (startRun s).draws = s.draws := rfl

/-! ### take -/

@[simp] theorem take_mem (h : Half) (s : State) : (take h s).mem = s.mem := rfl
@[simp] theorem take_acVal (h : Half) (s : State) : (take h s).acVal = s.acVal := rfl
@[simp] theorem take_acView (h : Half) (s : State) : (take h s).acView = s.acView := rfl
@[simp] theorem take_mq (h : Half) (s : State) : (take h s).mq = s.mq := rfl
@[simp] theorem take_mar (h : Half) (s : State) : (take h s).mar = h.addr.toNat := rfl
@[simp] theorem take_mbr (h : Half) (s : State) : (take h s).mbr = s.mbr := rfl
@[simp] theorem take_pc (h : Half) (s : State) : (take h s).pc = s.pc := rfl
@[simp] theorem take_ir (h : Half) (s : State) : (take h s).ir = h.op := rfl
@[simp] theorem take_ibr (h : Half) (s : State) : (take h s).ibr = s.ibr := rfl
@[simp] theorem take_base (h : Half) (s : State) : (take h s).base = s.base := rfl
@[simp] theorem take_params (h : Half) (s : State) : (take h s).params = s.params := rfl
@[simp] theorem take_run (h : Half) (s : State) : (take h s).run = s.run := rfl
@[simp] theorem take_draws (h : Half) (s : State) : (take h s).draws = s.draws := rfl

/-! ### fetchBuffered -/

@[simp] theorem fetchBuffered_mem (h : Half) (s : State) : (fetchBuffered h s).mem = s.mem := rfl
@[simp] theorem fetchBuffered_acVal (h : Half) (s : State) : (fetchBuffered h s).acVal = s.acVal := rfl
@[simp] theorem fetchBuffered_acView (h : Half) (s : State) : (fetchBuffered h s).acView = s.acView := rfl
@[simp] theorem fetchBuffered_mq (h : Half) (s : State) : (fetchBuffered h s).mq = s.mq := rfl
@[simp] theorem fetchBuffered_mar (h : Half) (s : State) : (fetchBuffered h s).mar = h.addr.toNat := rfl
@[simp] theorem fetchBuffered_mbr (h : Half) (s : State) : (fetchBuffered h s).mbr = s.mbr := rfl
@[simp] theorem fetchBuffered_pc (h : Half) (s : State) : (fetchBuffered h s).pc = s.pc + 1 := rfl
@[simp] theorem fetchBuffered_ir (h : Half) (s : State) : (fetchBuffered h s).ir = h.op := rfl
@[simp] theorem fetchBuffered_ibr (h : Half) (s : State) : (fetchBuffered h s).ibr = none := rfl
@[simp] theorem fetchBuffered_base (h : Half) (s : State) : (fetchBuffered h s).base = s.base := rfl
@[simp] theorem fetchBuffered_params (h : Half) (s : State) : (fetchBuffered h s).params = s.params := rfl
@[simp] theorem fetchBuffered_run (h : Half) (s : State) : (fetchBuffered h s).run = s.run := rfl
@[simp] theorem fetchBuffered_draws (h : Half) (s : State) : (fetchBuffered h s).draws = s.draws := rfl

/-! ### State.create -/

@[simp] theorem State.create_mem (p : Params) : (State.create p).mem = [] := rfl
@[simp] theorem State.create_acVal (p : Params) : (State.create p).acVal = 0 := rfl
@[simp] theorem State.create_acView (p : Params) : (State.create p).acView = Word.zero := rfl
@[simp] theorem State.create_mq (p : Params) : (State.create p).mq = 0 := rfl
@[simp] theorem State.create_mar (p : Params) : (State.create p).mar = 0 := rfl
@[simp] theorem State.create_mbr (p : Params) : (State.create p).mbr = Word.zero := rfl
@[simp] theorem State.create_pc (p : Params) : (State.create p).pc = 0 := rfl
@[simp] theorem State.create_ir (p : Params) : (State.create p).ir = 0 := rfl
@[simp] theorem State.create_ibr (p : Params) : (State.create p).ibr = none := rfl
@[simp] theorem State.create_base (p : Params) : (State.create p).base = 0 := rfl
@[simp] theorem State.create_params (p : Params) : (State.create p).params = p := rfl
@[simp] theorem State.create_run (p : Params) : (State.create p).run = .running := rfl
@[simp] theorem State.create_draws (p : Params) : (State.create p).draws = 0 := rfl

/-! ### registerReset -/

@[simp] theorem registerReset_mem (s : State) : (registerReset s).mem = s.mem := rfl
@[simp] theorem registerReset_acVal (s : State) : (registerReset s).acVal = 0 := rfl
@[simp] theorem registerReset_acView (s : State) : (registerReset s).acView = Word.zero := rfl
@[simp] theorem registerReset_mq (s : State) : (registerReset s).mq = 0 := rfl
@[simp] theorem registerReset_mar (s : State) : (registerReset s).mar = 0 := rfl
@[simp] theorem registerReset_mbr (s : State) : (registerReset s).mbr = Word.zero := rfl
@[simp] theorem registerReset_pc (s : State) : (registerReset s).pc = s.base := rfl
@[simp] theorem registerReset_ir (s : State) : (registerReset s).ir = 0 := rfl
@[simp] theorem registerReset_ibr (s : State) : (registerReset s).ibr = none := rfl
@[simp] theorem registerReset_base (s : State) : (registerReset s).base = s.base := rfl
@[simp] theorem registerReset_params (s : State) : (registerReset s).params = s.params := rfl
@[simp] theorem registerReset_run (s : State) : (registerReset s).run = .running := rfl
@[simp] theorem registerReset_draws (s : State) : (registerReset s).draws = s.draws := rfl

/-! ### fullReset -/

@[simp] theorem fullReset_mem (s : State) : (fullReset s).mem = [] := rfl
@[simp] theorem fullReset_acVal (s : State) : (fullReset s).acVal = 0 := rfl
@[simp] theorem fullReset_acView (s : State) : (fullReset s).acView = Word.zero := rfl
@[simp] theorem fullReset_mq (s : State) : (fullReset s).mq = 0 := rfl
@[simp] theorem fullReset_mar (s : State) : (fullReset s).mar = 0 := rfl
@[simp] theorem fullReset_mbr (s : State) : (fullReset s).mbr = Word.zero := rfl
@[simp] theorem fullReset_pc (s : State) : (fullReset s).pc = s.base := rfl
@[simp] theorem fullReset_ir (s : State) : (fullReset s).ir = 0 := rfl
@[simp] theorem fullReset_ibr (s : State) : (fullReset s).ibr = none := rfl
@[simp] theorem fullReset_base (s : State) : (fullReset s).base = s.base := rfl
@[simp] theorem fullReset_params (s : State) : (fullReset s).params = s.params := rfl
@[simp] theorem fullReset_run (s : State) : (fullReset s).run = .running := rfl
@[simp] theorem fullReset_draws (s : State) : (fullReset s).draws = s.draws := rfl

end Sys2Proof.Machine

namespace Sys2Proof

/-! ### Words and halves -/

@[simp] theorem Word.left_ofHalves (l r : Half) : (Word.ofHalves l r).left = l := rfl
@[simp] theorem Word.right_ofHalves (l r : Half) : (Word.ofHalves l r).right = r := rfl

end Sys2Proof

namespace Sys2Proof.Machine

@[simp] theorem setField_laddr (w : Word) (v : Addr) : setField w .laddr v = { w with laddr := v } := rfl
@[simp] theorem setField_raddr (w : Word) (v : Addr) : setField w .raddr v = { w with raddr := v } := rfl

end Sys2Proof.Machine
end

