-- ==== Sys2Proof/Tests/Slice0.lean ====
section
/-! SUPPORT. Tests: the smoke tests of the well-formedness checks, words written out from the spec's encoding, at most two
tests per instruction, from the vectors of 95_test_vectors.md, and a witness for the hypotheses of each statement. -/

namespace Sys2Proof.Tests

open Sys2Proof.Machine

/-! ### Helpers -/

/-- The instruction a half decodes to, if any. -/
def decoded (h : Half) : Option Instr := (decodeHalf h).toOption

/-- The word of a packed 40-bit number. -/
def wd (p : BitVec 40) : Word := Word.unpack p

/-- A machine at creation under `wrap` and `trunc` with the given words in memory (addresses rising). -/
def m (ws : List (Nat × BitVec 40)) : State := { State.reset with mem := ws.map fun c => (c.1, wd c.2) }

/-- The same machine under `VIEW_POLICY = fault`. -/
def mf (ws : List (Nat × BitVec 40)) : State := { m ws with params := ⟨.fault, .trunc⟩ }

/-- The next state an outcome answers. -/
def nextOf : Result → Option State
  | .next s => some s
  | .fault _ => none
  | .refused _ => none

/-- The fault an outcome answers: its code, its address or value, and the state it leaves. -/
def faultOf : Result → Option (Nat × Int × State)
  | .next _ => none
  | .fault (.constructionError v s) => some (1, v, s)
  | .fault (.unknownOpcode o s) => some (2, o.toNat, s)
  | .fault (.memoryAccess e s) => some (3, e, s)
  | .fault (.divideByZero s) => some (4, 0, s)
  | .refused _ => none

/-- The accumulator and `MQ` after an outcome. -/
def acMq (o : Result) : Option (Int × BitVec 40 × Int) := (nextOf o).map fun t => (t.acVal, t.acView.pack, t.mq)

/-- The registers that fetch and jumps write, after an outcome. -/
def flow (o : Result) : Option (Opcode × Nat × Option Half × Nat) := (nextOf o).map fun t => (t.ir, t.mar, t.ibr, t.pc)

/-- The word at an address after an outcome. -/
def memAt (o : Result) (a : Nat) : Option (BitVec 40) := (nextOf o).map fun t => (t.mem.read a).pack

/-- The fault an outcome answers. -/
def stopOf : Result → Option Fault
  | .next _ => none
  | .fault f => some f
  | .refused _ => none

theorem exists_next (o : Result) (P : State → Prop) [DecidablePred P]
    (h : (nextOf o).any (fun t => decide (P t)) = true) : ∃ t, o = .next t ∧ P t := by
  cases o with
  | next t => exact ⟨t, rfl, by simpa [nextOf] using h⟩
  | fault f => simp [nextOf] at h
  | refused r => simp [nextOf] at h

theorem exists_fault (o : Result) (P : Fault → Prop) [DecidablePred P]
    (h : (stopOf o).any (fun f => decide (P f)) = true) : ∃ f, o = .fault f ∧ P f := by
  cases o with
  | next t => simp [stopOf] at h
  | fault f => exact ⟨f, rfl, by simpa [stopOf] using h⟩
  | refused r => simp [stopOf] at h

/-! ### Well-formedness: an ill-formed term for each check (R54, vectors L1-2) -/

theorem test_wf_accepts_boundary : (RawWord.mk 255 4095 255 4095).wf = true := by decide
theorem test_wf_refuses_lop_256 : (RawWord.mk 256 0 0 0).wf = false := by decide
theorem test_wf_refuses_lop_negative : (RawWord.mk (-1) 0 0 0).wf = false := by decide
theorem test_wf_refuses_laddr_4096 : (RawWord.mk 0 4096 0 0).wf = false := by decide
theorem test_wf_refuses_laddr_negative : (RawWord.mk 0 (-1) 0 0).wf = false := by decide
theorem test_wf_refuses_rop_256 : (RawWord.mk 0 0 256 0).wf = false := by decide
theorem test_wf_refuses_rop_negative : (RawWord.mk 0 0 (-1) 0).wf = false := by decide
theorem test_wf_refuses_raddr_4096 : (RawWord.mk 0 0 0 4096).wf = false := by decide
theorem test_wf_refuses_raddr_negative : (RawWord.mk 0 0 0 (-1)).wf = false := by decide
theorem test_wf_instr : (Instr.loadM 4095).wf = true := by decide
theorem test_makeWord_records_the_offending_value : makeWord ⟨0, 4096, 0, 0⟩ = .error 4096 := rfl

/-! ### Decoding: words written out from the table of R53 and R61 -/

theorem test_decode_loadM : decoded (wd 0b00000001_000000000101_00000000_000000000000).left = some (.loadM 5) := by decide
theorem test_decode_loadBackM :
    decoded (wd 0b00000010_000000000011_00000000_000000000000).left = some (.loadBackM 3) := by decide
theorem test_decode_loadAbsM :
    decoded (wd 0b00000011_000000000100_00000000_000000000000).left = some (.loadAbsM 4) := by decide
theorem test_decode_loadNegAbsM :
    decoded (wd 0b00000000_000000000000_00000100_000000000010).right = some (.loadNegAbsM 2) := by decide
theorem test_decode_addM :
    decoded (wd 0b00000101_100000000001_00000000_000000000000).left = some (.addM 2049) := by decide
theorem test_decode_subM :
    decoded (wd 0b00000001_000000000111_00000110_000000000011).right = some (.subM 3) := by decide
theorem test_decode_addAbsM :
    decoded (wd 0b00000111_000000001010_00000000_000000000000).left = some (.addAbsM 10) := by decide
theorem test_decode_subAbsM :
    decoded (wd 0b00001000_111111111111_00000000_000000000000).left = some (.subAbsM 4095) := by decide
theorem test_decode_loadMQM :
    decoded (wd 0b00001001_000000001010_00000000_000000000000).left = some (.loadMQM 10) := by decide
theorem test_decode_loadMQ :
    decoded (wd 0b00001010_000000000000_00000000_000000000000).left = some (.loadMQ 0) := by decide
theorem test_decode_mulM :
    decoded (wd 0b00000000_000000000000_00001011_000000001011).right = some (.mulM 11) := by decide
theorem test_decode_divM :
    decoded (wd 0b00001100_000000001110_00000000_000000000000).left = some (.divM 14) := by decide
theorem test_decode_jumpLeft :
    decoded (wd 0b00001101_000000000000_00110010_000000000000).left = some (.jumpLeft 0) := by decide
theorem test_decode_jumpRight :
    decoded (wd 0b00001110_000000000010_00000000_000000000000).left = some (.jumpRight 2) := by decide
theorem test_decode_jumpPlusLeft :
    decoded (wd 0b00001111_000000000011_00110010_000000000000).left = some (.jumpPlusLeft 3) := by decide
theorem test_decode_jumpPlusRight :
    decoded (wd 0b00010000_000011100100_00000000_000000000000).left = some (.jumpPlusRight 228) := by decide
theorem test_decode_storLeftAddr :
    decoded (wd 0b00010010_000000000100_00000000_000000000000).left = some (.storLeftAddr 4) := by decide
theorem test_decode_storRightAddr :
    decoded (wd 0b00010011_000000110110_00000000_000000000000).left = some (.storRightAddr 54) := by decide
theorem test_decode_lsh :
    decoded (wd 0b00010100_000000000001_00000000_000000000000).left = some (.lsh 1) := by decide
theorem test_decode_rsh :
    decoded (wd 0b00000000_000000000000_00010101_000000000000).right = some (.rsh 0) := by decide
theorem test_decode_storM :
    decoded (wd 0b00100001_000000001100_00000000_000000000000).left = some (.storM 12) := by decide
theorem test_decode_hlt :
    decoded (wd 0b00110010_000001111011_00000000_000000000000).left = some (.hlt 123) := by decide
theorem test_decode_rejects_0 : decodeHalf (wd 0x0000300000).left = .error (.unallocated 0) := rfl
theorem test_decode_rejects_17 : decodeHalf (wd 0x1100000000).left = .error (.unallocated 17) := rfl
theorem test_decode_rejects_255 : decodeHalf (wd 0xFFFFF00000).left = .error (.unallocated 255) := rfl
theorem test_table_word : decodeTableWord 8 0x21 = some (.storM 0) ∧ decodeTableWord 20 0x2100C = some (.storM 12) := by
  decide
theorem test_first_step_runs_the_table_word :
    acMq (step (State.reset.withFetchWord 8 0x01)) = some (0x0100000000, 0x0100000000, 0) := by decide

/-! ### Instructions (95_test_vectors.md L1, L2) -/

theorem test_loadM : acMq (step (m [(0, 0x0100500000), (5, 0xFFFFFFFFFF)])) = some (1099511627775, 0xFFFFFFFFFF, 0) := by
  decide
theorem test_loadM_outside :
    (faultOf (step (m [(0, 0x0144C00000)]))).map (fun f => (f.1, f.2.1, f.2.2.acVal, f.2.2.pc)) = some (3, 1100, 0, 1) := by
  decide
theorem test_loadBackM : acMq (exec (.loadBackM 3) { m [(7, 9)] with base := 10 }) = some (9, 9, 0) := by decide
theorem test_loadBackM_outside : (faultOf (exec (.loadBackM 3) (m []))).map (fun f => (f.1, f.2.1)) = some (3, -3) := by
  decide
theorem test_loadAbsM_assigns : acMq (exec (.loadAbsM 4) { m [(4, 9)] with acVal := 12 }) = some (9, 9, 0) := by decide
theorem test_loadNegAbsM :
    acMq (exec (.loadNegAbsM 2) { m [(8, 6)] with base := 10 }) = some (-6, 0xFFFFFFFFFA, 0) := by decide
theorem test_loadNegAbsM_fault :
    (nextOf (exec (.loadNegAbsM 2) { mf [(8, 6)] with base := 10 })).isNone = true := by decide
theorem test_addM_beyond_40_bits :
    acMq (exec (.addM 4) { m [(4, 1)] with acVal := 2 ^ 40 - 1 }) = some (2 ^ 40, 0, 0) := by decide
theorem test_addM_negative : acMq (exec (.addM 4) { m [(4, 4)] with acVal := -10 }) = some (-6, 0xFFFFFFFFFA, 0) := by
  decide
theorem test_subM : acMq (exec (.subM 4) { m [(4, 94)] with acVal := 100 }) = some (6, 6, 0) := by decide
theorem test_subM_below_zero : acMq (exec (.subM 4) (m [(4, 1)])) = some (-1, 0xFFFFFFFFFF, 0) := by decide
theorem test_addAbsM : acMq (exec (.addAbsM 4) { m [(4, 3)] with acVal := -5 }) = some (-2, 0xFFFFFFFFFE, 0) := by decide
theorem test_subAbsM : acMq (exec (.subAbsM 4) (m [(4, 0xFFFFFFFFFF)])) = some (-(2 ^ 40 - 1), 1, 0) := by decide
theorem test_loadMQM : acMq (exec (.loadMQM 10) { m [(10, 6)] with acVal := 3, acView := wd 3 }) = some (3, 3, 6) := by
  decide
theorem test_loadMQ : acMq (exec (.loadMQ 4095) { m [] with mq := -3 }) = some (-3, 0xFFFFFFFFFD, -3) := by decide
theorem test_mulM_fields :
    acMq (exec (.mulM 4) { m [(4, 0xFFFFF)] with mq := 0xFFFFF, acVal := 77 }) = some (0xFFFFE, 0xFFFFE, 1) := by decide
theorem test_mulM_negative : acMq (exec (.mulM 4) { m [(4, 5)] with mq := -3 }) = some (1048575, 0xFFFFF, 1048561) := by
  decide
theorem test_divM_trunc : acMq (exec (.divM 4) { m [(4, 2)] with acVal := -7 }) = some (-1, 0xFFFFFFFFFF, -3) := by decide
theorem test_divM_floor :
    acMq (exec (.divM 4) { m [(4, 2)] with acVal := -7, params := ⟨.wrap, .floor⟩ }) = some (1, 1, -4) := by decide
theorem test_jumpLeft_discards : flow (step { m [(3, 0x0D00032000)] with pc := 3 }) = some (13, 0, none, 0) := by decide
theorem test_jumpLeft_outside :
    (faultOf (step { m [(1000, 0x0D06400000)] with pc := 1000, base := 1000 })).map
      (fun f => (f.1, f.2.1, f.2.2.pc, f.2.2.mar)) = some (3, 1100, 1001, 100) := by decide
theorem test_jumpRight :
    flow (step (m [(0, 0x0E00200000), (2, 0x320000100B)])) = some (14, 2, some ⟨1, 11⟩, 2) := by decide
theorem test_jumpPlusLeft_zero_taken : flow (step (m [(0, 0x0F00300000)])) = some (15, 3, none, 3) := by decide
theorem test_jumpPlusLeft_not_taken :
    flow (step { m [(0, 0x0FFFF32000)] with acVal := -1 }) = some (15, 4095, some ⟨50, 0⟩, 0) := by decide
theorem test_jumpPlusRight_taken :
    flow (step (m [(0, 0x100E400000), (228, 0x0000005009)])) = some (16, 228, some ⟨5, 9⟩, 228) := by decide
theorem test_jumpPlusRight_not_taken :
    flow (step { m [(0, 0x100E400000)] with acVal := -2 }) = some (16, 228, none, 1) := by decide
theorem test_storLeftAddr :
    memAt (exec (.storLeftAddr 4) { m [(4, 0x0D00000000)] with acView := wd 0x123456789A }) 4 = some 0x0D89A00000 := by
  decide
theorem test_storRightAddr :
    memAt (exec (.storRightAddr 54) { m [(54, 0x3200001000)] with acView := wd 11 }) 54 = some 0x320000100B := by decide
theorem test_storM : memAt (exec (.storM 12) { m [] with acVal := -6, acView := wd 0xFFFFFFFFFA }) 12 = some 0xFFFFFFFFFA := by
  decide
theorem test_lsh_no_bit_lost : acMq (exec (.lsh 4095) { m [] with acVal := 2 ^ 39 }) = some (2 ^ 40, 0, 0) := by decide
theorem test_rsh_floor : acMq (exec (.rsh 0) { m [] with acVal := -5 }) = some (-3, 0xFFFFFFFFFD, 0) := by decide
theorem test_hlt :
    (nextOf (step (m [(0, 0x3200001005)]))).map (fun t => (t.run, t.pc, t.ibr)) = some (.halted, 0, some ⟨1, 5⟩) := by
  decide

/-! ### Fetch and faults (L2-FETCH, L2-HALT, L2-DIV) -/

theorem test_fetch_right_only : flow (step (m [(0, 0x0000005009), (9, 1)])) = some (5, 9, none, 1) := by decide
theorem test_fetch_pair : flow (step (m [(0, 0x0100706003)])) = some (1, 7, some ⟨6, 3⟩, 0) := by decide
theorem test_fetch_buffered :
    flow (step { m [] with ibr := some ⟨10, 77⟩, pc := 4 }) = some (10, 77, none, 5) := by decide
theorem test_zero_word_faults :
    (faultOf (step State.reset)).map (fun f => (f.1, f.2.1, f.2.2.pc)) = some (2, 0, 1) := by decide
theorem test_div_checks_the_dividend_first : (faultOf (exec (.divM 2000) (m []))).map (·.1) = some 4 := by decide

/-! ### The host's operations (L1-7, L1-9, L2-HOST) -/

theorem test_setBase_1023 : (setBase 1023 State.reset).1 = .ok ∧ (setBase 1024 State.reset).1 = .rejected := by decide
theorem test_registerReset_keeps_base_and_memory :
    (fun s : State => (s.pc, s.base, (s.mem.read 3).pack, s.ibr)) (registerReset { m [(3, 0x63)] with base := 7, pc := 9 })
      = (7, 7, 0x63, none) := by decide
theorem test_bulkLoad_does_not_fit :
    (faultOf (bulkLoad [wd 1, wd 2, wd 3] { m [] with base := 1022 })).map
      (fun f => (f.1, f.2.1, (f.2.2.mem.read 1022).pack, (f.2.2.mem.read 1023).pack)) = some (3, 1024, 1, 2) := by decide
theorem test_singleStep_runs_the_pending_half :
    (nextOf (singleStep (wd 0x3200000000) { m [(3, 4)] with pc := 5, ibr := some ⟨6, 3⟩, acVal := 10 })).map
      (fun t => (t.acVal, t.pc, (t.mem.read 5).pack, t.run)) = some (6, 6, 0x3200000000, .stepped) := by decide
theorem test_memRange_refused : memRange 1020 1024 State.reset = none ∧ memRange 5 4 State.reset = none := by decide

/-! ### Witnesses: states and operands that meet each statement's hypotheses -/

theorem witness_MakeWordChecksEveryField :
    (RawWord.mk 255 4095 0 0).wf = true ∧ (RawWord.mk 255 4096 0 0).wf = false := by decide
theorem witness_DecodeOfEncodedWord : (Instr.loadM 4095).wf = true ∧ (Instr.hlt 0).wf = true := by decide
theorem witness_EncodeOfDecodedHalf : decodeHalf ⟨0x32, 4095⟩ = .ok (.hlt 4095) := rfl
theorem witness_DecodeRejectsExactlyUnallocated :
    (50#8).toNat ∈ allocated ∧ (51#8).toNat ∉ allocated ∧ (0#8).toNat ∉ allocated := by decide
theorem witness_ViewOfEveryValue :
    (0 ≤ (2 ^ 40 - 1 : Int) ∧ (2 ^ 40 - 1 : Int) < 2 ^ 40) ∧ ¬ (0 ≤ (-1 : Int) ∧ (-1 : Int) < 2 ^ 40) ∧
      ¬ (0 ≤ (2 ^ 40 : Int) ∧ (2 ^ 40 : Int) < 2 ^ 40) := by decide
theorem witness_StepAndHostCallsKeepInvariants :
    (m [(0, 0x0100706003)]).Inv ∧ ∃ t, step (m [(0, 0x0100706003)]) = .next t ∧ t.pc = 0 :=
  ⟨by decide, exists_next _ _ (by decide)⟩
theorem witness_StepAndHostCallsKeepInvariants_limit :
    ({ m [(1023, 0x1400000000)] with pc := 1023 }).Inv ∧
      ∃ t, step { m [(1023, 0x1400000000)] with pc := 1023 } = .next t ∧ t.pc = 1024 :=
  ⟨by decide, exists_next _ _ (by decide)⟩
/-- A completed run after which the host sets the base, and calls at their boundaries. -/
theorem witness_StepAndHostCallsKeepInvariants_calls :
    ({ m [] with pc := 1024, run := .completed }).Inv ∧
      (∃ t, hostCall (.setBase 1023) { m [] with pc := 1024, run := .completed } = .next t ∧ t.pc = 1023) ∧
      (∃ t, hostCall .registerReset { m [] with pc := 1024, base := 3 } = .next t ∧ t.pc = 3) ∧
      (∃ t, hostCall .fullReset (m [(1, 5)]) = .next t ∧ t.mem = []) ∧
      (∃ t, hostCall (.bulkLoad [wd 0x3200000000]) (m []) = .next t ∧ t.pc = 0) ∧
      (∃ t, hostCall (.bulkRun 1 [wd 0x3200000000]) (m []) = .next t ∧ t.run = .halted) ∧
      ∃ t, hostCall (.singleStep (wd 0x1400000000)) { m [] with pc := 1023 } = .next t ∧ t.pc = 1024 :=
  ⟨by decide, exists_next _ _ (by decide), exists_next _ _ (by decide), exists_next _ _ (by decide),
    exists_next _ _ (by decide), exists_next _ _ (by decide), exists_next _ _ (by decide)⟩
theorem witness_FaultLeavesInvariants :
    State.reset.Inv ∧ (∃ f, step State.reset = .fault f ∧ f.code ≠ 1) ∧ ({ m [] with pc := 1024 }).Inv ∧
      (∃ f, hostCall (.singleStep (wd 0)) { m [] with pc := 1024 } = .fault f ∧ f.code = 3) ∧
      (∃ f, hostCall (.bulkRun 1 [wd 0]) (m []) = .fault f ∧ f.code = 2) ∧
      (mf [(0, 0x0600400000), (4, 1)]).Inv ∧ ∃ f, step (mf [(0, 0x0600400000), (4, 1)]) = .fault f ∧ f.code = 1 :=
  ⟨by decide, exists_fault _ _ (by decide), by decide, exists_fault _ _ (by decide), exists_fault _ _ (by decide),
    by decide, exists_fault _ _ (by decide)⟩
theorem witness_FetchConsumesPendingHalf : ({ m [] with ibr := some ⟨0, 0⟩ }).ibr = some Half.zero := by decide
theorem witness_FetchOutsideMemoryFaults :
    ({ m [] with pc := 1024 }).ibr = none ∧ 1023 < ({ m [] with pc := 1024 }).pc := by decide
theorem witness_FetchTakesTheOnlyHalf :
    (m []).ibr = none ∧ ({ m [] with pc := 1023 }).pc ≤ 1023 ∧
      (m []).mem.read 0 = Word.zero ∧ ((m [(0, 0x0000005009)]).mem.read 0).left = Half.zero ∧
      ((m [(0, 0x0000300000)]).mem.read 0).left ≠ Half.zero ∧
      ((m [(0, 0x0000300000)]).mem.read 0).right = Half.zero := by decide
theorem witness_SmallDataWordFaultsAsOpcodeZero :
    (m [(0, 4095)]).run = .running ∧ (m [(0, 4095)]).ibr = none ∧ (m [(0, 4095)]).pc ≤ 1023 ∧
      ((m [(0, 4095)]).mem.read 0).val < 4096 ∧ ((m []).mem.read 0).val < 4096 := by decide
theorem witness_FetchBuffersTheRightHalf :
    (m [(0, 0x0100000001)]).ibr = none ∧ (m [(0, 0x0100000001)]).pc ≤ 1023 ∧
      ((m [(0, 0x0100000001)]).mem.read 0).left ≠ Half.zero ∧
      ((m [(0, 0x0100000001)]).mem.read 0).right ≠ Half.zero := by decide
theorem witness_StepRunsDecodedInstruction :
    (m []).run = .running ∧ ({ m [] with pc := 1023 }).pc ≤ 1023 ∧ decoded ⟨10, 77⟩ = some (.loadMQ 77) ∧
      decoded ((m [(0, 0x0000005009)]).mem.read 0).right = some (.addM 9) ∧
      decoded ((m [(0, 0x0500900000)]).mem.read 0).left = some (.addM 9) ∧
      ((m [(0, 0x0500900000)]).mem.read 0).right = Half.zero ∧
      decoded ((m [(0, 0x0100706003)]).mem.read 0).left = some (.loadM 7) ∧
      ((m [(0, 0x0100706003)]).mem.read 0).right ≠ Half.zero := by decide
theorem witness_StepRunsThePlacedWord : decodeTableWord 8 0x32 = some (.hlt 0) ∧ State.reset.pc ≤ 1023 := by decide
theorem witness_UnallocatedOpcodeFaults :
    (m [(0, 0x1100000000)]).run = .running ∧ (m [(0, 0x1100000000)]).pc ≠ 1024 ∧
      ∃ t, fetch (m [(0, 0x1100000000)]) = .next t ∧ t.ir.toNat = 17 :=
  ⟨by decide, by decide, exists_next _ _ (by decide)⟩
theorem witness_UnallocatedOpcodeFaults_ranges :
    ((nextOf (fetch (m [(0, 0x1600000000)]))).map (·.ir.toNat), (nextOf (fetch (m [(0, 0x2000000000)]))).map (·.ir.toNat),
      (nextOf (fetch (m [(0, 0x2200000000)]))).map (·.ir.toNat), (nextOf (fetch (m [(0, 0x3100000000)]))).map (·.ir.toNat),
      (nextOf (fetch (m [(0, 0x3300000000)]))).map (·.ir.toNat), (nextOf (fetch (m [(0, 0xFF00000000)]))).map (·.ir.toNat))
      = (some 22, some 32, some 34, some 49, some 51, some 255) := by decide
theorem witness_PairRunsLeftThenRight :
    (m [(0, 0x0100706003)]).run = .running ∧ (m [(0, 0x0100706003)]).ibr = none ∧ (m [(0, 0x0100706003)]).pc ≤ 1023 ∧
      decoded ((m [(0, 0x0100706003)]).mem.read 0).left = some (.loadM 7) ∧
      decoded ((m [(0, 0x0100706003)]).mem.read 0).right = some (.subM 3) ∧
      (Instr.loadM 7).opcode.toNat ∉ [13, 14, 15, 16, 50] ∧
      ∃ t, step (m [(0, 0x0100706003)]) = .next t ∧ t.pc = 0 := by
  refine ⟨by decide, by decide, by decide, by decide, by decide, by decide, exists_next _ _ (by decide)⟩
theorem witness_BufferedHalfIsStale :
    (m [(0, 0x1300001005)]).run = .running ∧ (m [(0, 0x1300001005)]).ibr = none ∧
      eaForward (m [(0, 0x1300001005)]) 0 = (m [(0, 0x1300001005)]).pc ∧
      decoded ((m [(0, 0x1200001005)]).mem.read 0).left = some (.storLeftAddr 0) ∧
      decoded ((m [(0, 0x1300001005)]).mem.read 0).left = some (.storRightAddr 0) ∧
      decoded ((m [(0, 0x2100001005)]).mem.read 0).left = some (.storM 0) ∧
      decoded ((m [(0, 0x1300001005)]).mem.read 0).right = some (.loadM 5) := by decide
theorem witness_RunEndsAtTheMemoryLimit :
    ({ m [] with pc := 1024 }).run = .running ∧ ({ m [] with pc := 1024 }).pc = 1024 ∧
      ({ m [] with run := .halted }).run ≠ .running := by decide
theorem witness_CompletedOnlyAtTheMemoryLimit :
    ({ m [] with pc := 1024 }).run = .running ∧ ∃ t, step { m [] with pc := 1024 } = .next t ∧ t.run = .completed :=
  ⟨by decide, exists_next _ _ (by decide)⟩
theorem witness_OnlyHaltEndsTheRun :
    (Instr.lsh 0).opcode ≠ 0x32 ∧ ∃ t, exec (.lsh 0) (m []) = .next t ∧ t.run = .running :=
  ⟨by decide, exists_next _ _ (by decide)⟩
theorem witness_HaltStopsTheRun : (m []).run = .running := by decide
theorem witness_FuelNeverChangesAnEndedRun :
    ∃ t, runTurns 1 (m [(0, 0x3200000000)]) = .next t ∧ t.run ≠ .running := exists_next _ _ (by decide)
theorem witness_FuelNeverChangesAnEndedRun_fault : ∃ f, runTurns 1 State.reset = .fault f ∧ f.code = 2 :=
  exists_fault _ _ (by decide)
theorem witness_OnlyJumpsWritePcAndBuffer :
    (Instr.storM 0).opcode.toNat ∉ [13, 14, 15, 16] ∧ ∃ t, exec (.storM 0) (m []) = .next t ∧ t.pc = 0 :=
  ⟨by decide, exists_next _ _ (by decide)⟩
theorem witness_NoInstructionWritesFetchRegisters : ∃ t, exec (.jumpRight 1023) (m []) = .next t ∧ t.pc = 1023 :=
  exists_next _ _ (by decide)
theorem witness_OnlyTheStoredWordChanges :
    storeAddress (.storM 1023) (m []) ≠ some ((1022 : Nat) : Int) ∧
      ∃ t, exec (.storM 1023) (m []) = .next t ∧ t.mem.read 1022 = Word.zero :=
  ⟨by decide, exists_next _ _ (by decide)⟩
theorem witness_WritersOfAccumulatorAndMq :
    (Instr.hlt 0).opcode.toNat ∉ [1, 2, 3, 4, 5, 6, 7, 8, 10, 11, 12, 20, 21] ∧
      (Instr.hlt 0).opcode.toNat ∉ [9, 11, 12] ∧ ∃ t, exec (.hlt 0) (m []) = .next t ∧ t.acVal = 0 :=
  ⟨by decide, by decide, exists_next _ _ (by decide)⟩
theorem witness_NoInstructionReadsFetchRegisters :
    (Instr.mulM 4).opcode.toNat ∉ [13, 14, 15, 16] ∧ ∃ t, exec (.mulM 4) (m []) = .next t ∧ t.mq = 0 :=
  ⟨by decide, exists_next _ _ (by decide)⟩

/-- Forward addresses at both sides of the bound: 1023 exists, 1024 does not. The witness of LoadForward,
LoadAbsoluteAssigns, LoadMqFromMemory, MultiplySplitsTheProduct, JumpsSetPcAndBuffer, StoreWholeWord,
StoreAddressFields and ForwardOperandOutsideMemoryFaults, whose only hypotheses these are. -/
theorem witness_forward_address :
    ({ m [] with base := 10 }).base + (1013 : Addr).toNat ≤ 1023 ∧ 1023 < ({ m [] with base := 10 }).base + (1014 : Addr).toNat := by
  decide
/-- Backward addresses at both sides of the bound: the witness of LoadBackward, and of LoadNegativeAbsoluteBackward with
the next theorem. -/
theorem witness_backward_address :
    ({ m [] with base := 10 }).base ≤ 1023 ∧ (10 : Addr).toNat ≤ ({ m [] with base := 10 }).base ∧
      ({ m [] with base := 10 }).base < (11 : Addr).toNat := by decide
theorem witness_LoadNegativeAbsoluteBackward :
    ((m []).mem.read 0).val = 0 ∧ ((m [(0, 1)]).mem.read 0).val ≠ 0 ∧ (m [(0, 1)]).params.viewPolicy = .wrap ∧
      (mf [(0, 1)]).params.viewPolicy = .fault ∧ (0 : Addr).toNat ≤ (mf [(0, 1)]).base := by decide
theorem witness_LoadMqIntoAccumulator :
    ({ m [] with mq := -1 }).Viewable (-1) ∧ ({ mf [] with mq := 2 ^ 40 - 1 }).Viewable (2 ^ 40 - 1) ∧
      ¬ ({ mf [] with mq := 2 ^ 40 }).Viewable (2 ^ 40) := by decide
theorem witness_AddAndSubtractAreExact :
    (mf [(4, 1)]).Viewable (0 + 1) ∧ ¬ (mf [(4, 1)]).Viewable (0 - 1) ∧ (mf [(4, 1)]).base + (4 : Addr).toNat ≤ 1023 := by
  decide
theorem witness_DivideGivesQuotientAndRemainder :
    ({ m [(4, 2)] with acVal := -7 }).acVal ≠ 0 ∧ ({ m [(4, 2)] with acVal := -7 }).base + (4 : Addr).toNat ≤ 1023 ∧
      (({ m [(4, 2)] with acVal := -7 }).mem.read 4).val ≠ 0 ∧ ({ m [(4, 2)] with acVal := -7 }).Viewable (-1) ∧
      ¬ ({ mf [(4, 2)] with acVal := -7 }).Viewable (-1) := by decide
theorem witness_DivideFaultsInOrder :
    (m []).acVal = 0 ∧ ({ m [] with acVal := 5 }).acVal ≠ 0 ∧ 1023 < (m []).base + (1024 : Addr).toNat ∧
      (m []).base + (1023 : Addr).toNat ≤ 1023 ∧ (m []).mem.read ((m []).base + (1023 : Addr).toNat) = Word.zero := by
  decide
theorem witness_ShiftsDoubleAndHalve :
    ({ mf [] with acVal := 2 ^ 39 - 1 }).Viewable (2 * (2 ^ 39 - 1)) ∧ ¬ ({ mf [] with acVal := 2 ^ 39 }).Viewable (2 * 2 ^ 39) := by
  decide
theorem witness_ConditionalJumpsTestTheSign :
    0 ≤ (m []).acVal ∧ ({ m [] with acVal := -1 }).acVal < 0 ∧ (m []).base + (1023 : Addr).toNat ≤ 1023 ∧
      1023 < (m []).base + (1024 : Addr).toNat := by decide
theorem witness_RightJumpRunsTheTargetHalf :
    (m [(2, 0x320000100B)]).run = .running ∧ (m [(2, 0x320000100B)]).base + (2 : Addr).toNat ≤ 1023 ∧
      decoded ((m [(2, 0x320000100B)]).mem.read 2).right = some (.loadM 11) := by decide
theorem witness_StoreThenLoad :
    ({ m [] with acVal := -6, acView := wd 0xFFFFFFFFFA }).ViewAgrees ∧ (m []).base + (1023 : Addr).toNat ≤ 1023 := by
  decide
theorem witness_EachFaultHasItsRaisers :
    (∃ f, exec (.subM 4) (mf [(4, 1)]) = .fault f ∧ f.code = 1) ∧
      (∃ f, exec (.loadM 1024) (m []) = .fault f ∧ f.code = 3) ∧
      (∃ f, exec (.loadBackM 1) (m []) = .fault f ∧ f.code = 3) ∧
      (∃ f, exec (.divM 0) (m [(0, 1)]) = .fault f ∧ f.code = 4) ∧
      ∃ f, exec (.divM 1023) { m [] with acVal := 5 } = .fault f ∧ f.code = 4 :=
  ⟨exists_fault _ _ (by decide), exists_fault _ _ (by decide), exists_fault _ _ (by decide),
    exists_fault _ _ (by decide), exists_fault _ _ (by decide)⟩
theorem witness_FaultsArePrecise :
    (∃ t, fetch (m [(0, 0x0C00000000)]) = .next t ∧ t.mar = 0) ∧
      ∃ f, step (m [(0, 0x0C00000000)]) = .fault f ∧ f.code ≠ 1 :=
  ⟨exists_next _ _ (by decide), exists_fault _ _ (by decide)⟩
theorem witness_FaultsArePrecise_construction :
    (∃ t, fetch (mf [(0, 0x0600400000), (4, 1)]) = .next t ∧ t.mar = 4) ∧
      ∃ f, step (mf [(0, 0x0600400000), (4, 1)]) = .fault f ∧ f.code = 1 :=
  ⟨exists_next _ _ (by decide), exists_fault _ _ (by decide)⟩
theorem witness_SetBaseMovesPc :
    (0 ≤ (1023 : Int) ∧ (1023 : Int) ≤ 1023) ∧ ¬ (0 ≤ (1024 : Int) ∧ (1024 : Int) ≤ 1023) ∧
      ¬ (0 ≤ (-1 : Int) ∧ (-1 : Int) ≤ 1023) := by decide
theorem witness_BulkLoadCopiesTheSequence :
    ({ m [] with base := 1023 }).base ≤ 1023 ∧ ({ m [] with base := 1023 }).base + [wd 1].length ≤ 1024 ∧
      1024 < ({ m [] with base := 1023 }).base + [wd 1, wd 2].length := by decide
theorem witness_SingleStepRunsOneCycle :
    1023 < ({ m [] with pc := 1024 }).pc ∧ ({ m [] with pc := 1023 }).pc ≤ 1023 ∧
      (∃ t, step { m [] with mem := (m []).mem.write 0 (wd 0x3200000000) } = .next t ∧ t.ir = 0x32) ∧
      (∃ t, step { m [] with mem := (m []).mem.write 0 (wd 0x1400000000) } = .next t ∧ t.ir ≠ 0x32) ∧
      ∃ f, step { m [] with mem := (m []).mem.write 0 (wd 0) } = .fault f ∧ f.code = 2 :=
  ⟨by decide, by decide, exists_next _ _ (by decide), exists_next _ _ (by decide), exists_fault _ _ (by decide)⟩
theorem witness_HostReads :
    (0 ≤ (0 : Int) ∧ (0 : Int) ≤ 1023 ∧ (1023 : Int) ≤ 1023) ∧ ¬ (0 ≤ (5 : Int) ∧ (5 : Int) ≤ 4 ∧ (4 : Int) ≤ 1023) := by
  decide
theorem witness_BulkRunGoesOnFromPcAndBuffer :
    (∃ t, bulkLoad [wd 1] (m []) = .next t ∧ t.pc = 0) ∧
      ∃ f, bulkLoad [wd 1, wd 2] { m [] with base := 1023 } = .fault f ∧ f.code = 3 :=
  ⟨exists_next _ _ (by decide), exists_fault _ _ (by decide)⟩

end Sys2Proof.Tests
end

section
/-! PROOFS. What a fetch does with the pending half and with a word that holds one instruction (40_fetch_execute.md R74 to
R77). -/

namespace Sys2Proof

theorem Word.left_eq_zero_iff (w : Word) : w.left = Half.zero ↔ w.lop = 0 ∧ w.laddr = 0 := by
  simp only [Word.left, Half.zero, Half.mk.injEq]

theorem Word.right_eq_zero_iff (w : Word) : w.right = Half.zero ↔ w.rop = 0 ∧ w.raddr = 0 := by
  simp only [Word.right, Half.zero, Half.mk.injEq]

end Sys2Proof

namespace Sys2Proof.Machine

/-- R74: the buffered case of `fetch_cases`. -/
theorem fetch_of_pending {s : State} {h : Half} (hi : s.ibr = some h) : fetch s = .next (fetchBuffered h s) := by
  obtain ⟨h', hi', hf⟩ | ⟨hn, -, -⟩ | ⟨hn, -, -⟩ := fetch_cases s
  · obtain rfl : h = h' := Option.some.inj (hi.symm.trans hi')
    exact hf
  · exact absurd (hi.symm.trans hn) nofun
  · exact absurd (hi.symm.trans hn) nofun

/-- R75: the memory case of `fetch_cases`, for a `PC` inside the memory. -/
theorem fetch_of_empty {s : State} (hi : s.ibr = none) (hp : s.pc ≤ 1023) :
    fetch s = .next (fetchWord (s.mem.read s.pc) { s with mar := s.pc, mbr := s.mem.read s.pc }) := by
  obtain ⟨h, hi', -⟩ | ⟨-, -, hf⟩ | ⟨-, hout, -⟩ := fetch_cases s
  · exact absurd (hi.symm.trans hi') nofun
  · exact hf
  · exact absurd (Nat.lt_succ_of_le hp) (Nat.not_lt.mpr hout)

/-- R76: of a word with an all-zero left half the right half is taken, whatever it is. -/
theorem fetchWord_of_left_zero {w : Word} (hl : w.left = Half.zero) (s : State) :
    fetchWord w s = { take w.right s with pc := s.pc + 1 } := by
  obtain ⟨-, hf⟩ | ⟨hl', -, -⟩ | ⟨hl', -, -⟩ := fetchWord_cases w s
  · exact hf
  · exact absurd hl hl'
  · exact absurd hl hl'

/-- R77: the right half is tested only when the left one is populated. -/
theorem fetchWord_of_right_zero {w : Word} (hl : w.left ≠ Half.zero) (hr : w.right = Half.zero) (s : State) :
    fetchWord w s = { take w.left s with pc := s.pc + 1 } := by
  obtain ⟨hl', -⟩ | ⟨-, -, hf⟩ | ⟨-, hr', -⟩ := fetchWord_cases w s
  · exact absurd hl' hl
  · exact hf
  · exact absurd hr hr'

/-- Settles O13: the buffered case of Fetch, with the fields that `fetchBuffered` writes. -/
theorem fetchConsumesPendingHalf : Obligations.FetchConsumesPendingHalf := by
  intro s h hi
  exact fetch_of_pending hi

/-- Settles O15: the memory case of Fetch, then the left half's test (R76) and the right half's (R77), in this order. -/
theorem fetchTakesTheOnlyHalf : Obligations.FetchTakesTheOnlyHalf := by
  intro s hi hp w
  have hf := fetch_of_empty hi hp
  constructor
  · intro hl
    rw [hf, fetchWord_of_left_zero ((Word.left_eq_zero_iff w).mpr hl)]
    rfl
  · intro hl hr
    rw [hf, fetchWord_of_right_zero (mt (Word.left_eq_zero_iff w).mp hl) ((Word.right_eq_zero_iff w).mpr hr)]
    rfl

end Sys2Proof.Machine
end

section
/-! PROOFS. What happens to an opcode that the table never allocates (46_halt_and_unallocated.md R131): the decoder
rejects it, Execute faults with it, and the step is that Execute. -/

namespace Sys2Proof

/-- R62: the decoder's last arm, reached by every opcode that none of the 22 arms before it takes. -/
theorem decodeHalf_of_not_allocated {h : Half} (hop : h.op.toNat ∉ Machine.allocated) :
    decodeHalf h = .error (.unallocated h.op) := by
  unfold decodeHalf
  split
  case h_23 => rfl
  all_goals
    next hn =>
      rw [hn] at hop
      exact absurd (by decide) hop

end Sys2Proof

namespace Sys2Proof.Machine

/-- R131, R61: the ranges that the spec lists hold no row of the opcode table. -/
theorem not_mem_allocated_of_unallocated_range {n : Nat}
    (h : n ∈ [0, 17] ∨ (22 ≤ n ∧ n ≤ 32) ∨ (34 ≤ n ∧ n ≤ 49) ∨ 51 ≤ n) : n ∉ allocated := by
  simp only [allocated, List.mem_cons, List.not_mem_nil, or_false] at h ⊢
  omega

/-- R79: the rejecting case of `execute_cases`, with the opcode that `IR` holds. -/
theorem execute_of_not_allocated {s : State} (hir : s.ir.toNat ∉ allocated) :
    execute s = .fault (.unknownOpcode s.ir s) := by
  have hd : decodeHalf ⟨s.ir, .ofNat 12 s.mar⟩ = .error (.unallocated s.ir) := decodeHalf_of_not_allocated hir
  obtain ⟨i, hi, -⟩ | ⟨op, hop, he⟩ := execute_cases s
  · exact absurd (hd.symm.trans hi) nofun
  · cases hd.symm.trans hop
    exact he

/-- R73, R83: a running machine below or above the memory limit executes on the state that its fetch left. -/
theorem step_of_fetch_next {s t : State} (hr : s.run = .running) (hp : s.pc ≠ Config.memSize) (hf : fetch s = .next t) :
    step s = execute t := by
  obtain ⟨-, hlimit, -⟩ | ⟨-, -, hs⟩ | ⟨hended, -⟩ := step_cases s
  · exact absurd hlimit hp
  · rw [hs, cycle, hf, andThen_next_left]
  · exact absurd hr hended

/-- Settles O20: the step is Execute on the fetched state, whose opcode the table does not allocate. -/
theorem unallocatedOpcodeFaults : Obligations.UnallocatedOpcodeFaults := by
  intro s t hr hp hf hir
  rw [step_of_fetch_next hr hp hf]
  exact execute_of_not_allocated (not_mem_allocated_of_unallocated_range hir)

end Sys2Proof.Machine
end

section
/-! PROOFS. The codec (30_encoding.md R55 to R58): `pack` as a weighted sum of the fields, from which that it is the inverse
of `unpack`, and what the value of a word is. -/

namespace Sys2Proof

/-- R53, R55: the four fields occupy disjoint places, so OR-ing them together adds them up. -/
theorem Word.toNat_pack (w : Word) :
    w.pack.toNat = w.lop.toNat * 2 ^ 32 + w.laddr.toNat * 2 ^ 20 + w.rop.toNat * 2 ^ 12 + w.raddr.toNat := by
  obtain ⟨lop, laddr, rop, raddr⟩ := w
  have h1 := lop.isLt
  have h2 := laddr.isLt
  have h3 := rop.isLt
  have h4 := raddr.isLt
  have orIsAdd : ∀ i a b : Nat, b < 2 ^ i → a * 2 ^ i ||| b = a * 2 ^ i + b := fun i a b hb => by
    rw [Nat.mul_comm]
    exact (Nat.two_pow_add_eq_or_of_lt hb a).symm
  simp only [Word.pack, BitVec.toNat_or, BitVec.toNat_shiftLeft, BitVec.toNat_setWidth, Nat.shiftLeft_eq]
  rw [Nat.mod_eq_of_lt (by omega : lop.toNat < 2 ^ 40), Nat.mod_eq_of_lt (by omega : laddr.toNat < 2 ^ 40),
    Nat.mod_eq_of_lt (by omega : rop.toNat < 2 ^ 40), Nat.mod_eq_of_lt (by omega : raddr.toNat < 2 ^ 40),
    Nat.mod_eq_of_lt (by omega), Nat.mod_eq_of_lt (by omega), Nat.mod_eq_of_lt (by omega),
    orIsAdd 32 _ _ (by omega)]
  have e2 := orIsAdd 20 (lop.toNat * 2 ^ 12 + laddr.toNat) (rop.toNat * 2 ^ 12) (by omega)
  have e3 := orIsAdd 12 (lop.toNat * 2 ^ 20 + laddr.toNat * 2 ^ 8 + rop.toNat) raddr.toNat (by omega)
  rw [show lop.toNat * 2 ^ 32 + laddr.toNat * 2 ^ 20 = (lop.toNat * 2 ^ 12 + laddr.toNat) * 2 ^ 20 by omega, e2,
    show (lop.toNat * 2 ^ 12 + laddr.toNat) * 2 ^ 20 + rop.toNat * 2 ^ 12
      = (lop.toNat * 2 ^ 20 + laddr.toNat * 2 ^ 8 + rop.toNat) * 2 ^ 12 by omega, e3]

@[simp] theorem Word.unpack_pack (w : Word) : Word.unpack w.pack = w := by
  have hp := w.toNat_pack
  obtain ⟨lop, laddr, rop, raddr⟩ := w
  have h1 := lop.isLt
  have h2 := laddr.isLt
  have h3 := rop.isLt
  have h4 := raddr.isLt
  simp only [Word.unpack, Word.mk.injEq]
  refine ⟨?_, ?_, ?_, ?_⟩ <;>
    · apply BitVec.eq_of_toNat_eq
      rw [BitVec.extractLsb'_toNat, hp, Nat.shiftRight_eq_div_pow]
      dsimp only
      omega

@[simp] theorem Word.pack_unpack (p : BitVec 40) : (Word.unpack p).pack = p := by
  have hp := p.isLt
  apply BitVec.eq_of_toNat_eq
  rw [Word.toNat_pack]
  simp only [Word.unpack, BitVec.extractLsb'_toNat, Nat.shiftRight_eq_div_pow]
  omega

/-- Settles O1: the two directions of R57's contract. -/
theorem packAndUnpackAreInverse : Obligations.PackAndUnpackAreInverse :=
  ⟨Word.unpack_pack, Word.pack_unpack⟩

/-- Settles O2: the sum of `toNat_pack`, and the range of a 40-bit number. -/
theorem valueIsWeightedFieldSum : Obligations.ValueIsWeightedFieldSum := by
  intro w
  obtain ⟨hnonneg, hlt⟩ := Machine.word_val_range w
  refine ⟨?_, hnonneg, hlt, abs_of_nonneg hnonneg⟩
  rw [Word.val, Word.toNat_pack]
  push_cast
  rfl

/-- R58: a word is determined by its value. -/
theorem Word.val_injective : Function.Injective Word.val := by
  intro v w h
  have hpack : v.pack = w.pack := BitVec.eq_of_toNat_eq (Int.ofNat_inj.mp h)
  rw [← v.unpack_pack, hpack, w.unpack_pack]

theorem Word.val_eq_zero_iff (w : Word) : w.val = 0 ↔ w = Word.zero :=
  ⟨fun h => Word.val_injective h, fun h => h ▸ rfl⟩

/-- R56, R58: the value of the word that a number in range is unpacked to. -/
theorem Word.val_unpack_ofNat {v : Int} (h : 0 ≤ v ∧ v < 2 ^ 40) : (Word.unpack (.ofNat 40 v.toNat)).val = v := by
  rw [Word.val, Word.pack_unpack, BitVec.toNat_ofNat]
  omega

end Sys2Proof

namespace Sys2Proof.Machine

/-- R16: a value with a view has the word of its residue modulo `2^40`, under either policy. -/
theorem val_of_viewOf {p : ViewPolicy} {v : Int} {w : Word} (h : viewOf p v = some w) : w.val = v % 2 ^ 40 := by
  unfold viewOf at h
  split at h
  · next hv =>
    cases h
    rw [Word.val_unpack_ofNat hv, Int.emod_eq_of_lt hv.1 hv.2]
  · cases p with
    | wrap =>
      cases h
      exact Word.val_unpack_ofNat (by omega)
    | fault => cases h

/-- R16, R58: the view of a word's value is the word itself, under either policy. -/
@[simp] theorem viewOf_val (p : ViewPolicy) (w : Word) : viewOf p w.val = some w := by
  rw [viewOf_in_range p (word_val_range w)]
  exact congrArg some (Word.val_injective (Word.val_unpack_ofNat (word_val_range w)))

/-- R16: which values have a view. -/
theorem exists_viewOf {p : ViewPolicy} {v : Int} (h : p = .wrap ∨ (0 ≤ v ∧ v < 2 ^ 40)) : ∃ w, viewOf p v = some w := by
  refine Option.ne_none_iff_exists'.mp fun hn => ?_
  obtain ⟨hp, hv⟩ := viewOf_eq_none.mp hn
  obtain hw | hr := h
  · exact absurd (hp.symm.trans hw) nofun
  · exact hv hr

/-- Settles O8: where there is a view (`exists_viewOf`), its value is the residue (`val_of_viewOf`), which for a value in
range is the value. -/
theorem viewOfEveryValue : Obligations.ViewOfEveryValue := by
  intro p v
  refine ⟨fun hv => ?_, fun _ hp => ?_, fun hv hp => viewOf_eq_none.mpr ⟨hp, hv⟩⟩
  · obtain ⟨w, hw⟩ := exists_viewOf (p := p) (.inr hv)
    exact ⟨w, hw, (val_of_viewOf hw).trans (Int.emod_eq_of_lt hv.1 hv.2)⟩
  · obtain ⟨w, hw⟩ := exists_viewOf (v := v) (.inl hp)
    exact ⟨w, hw, val_of_viewOf hw⟩

end Sys2Proof.Machine
end

section
/-! PROOFS. The construction of a word from four field values (30_encoding.md R54, 70_reset_and_hazards.md R157). -/

namespace Sys2Proof

theorem fitsBits_iff (n : Nat) (v : Int) : fitsBits n v = true ↔ 0 ≤ v ∧ v < 2 ^ n := by
  simp only [fitsBits, Bool.and_eq_true, decide_eq_true_eq]

/-- R54: a field value is picked out exactly when it does not fit. -/
theorem pickUnfit_eq_some {n : Nat} {x v : Int} :
    (if fitsBits n x then none else some x) = some v ↔ v = x ∧ ¬ (0 ≤ v ∧ v < 2 ^ n) := by
  have hfits := fitsBits_iff n x
  cases hb : fitsBits n x with
  | true => exact ⟨nofun, fun ⟨hv, hout⟩ => absurd (hfits.mp hb) (hv ▸ hout)⟩
  | false =>
    have hout : ¬ (0 ≤ x ∧ x < 2 ^ n) := fun h => absurd (hb.symm.trans (hfits.mpr h)) nofun
    exact ⟨fun h => by cases h; exact ⟨rfl, hout⟩, fun ⟨hv, _⟩ => congrArg some hv.symm⟩

/-- R54: what the offending values are. -/
theorem RawWord.mem_offending (r : RawWord) (v : Int) :
    v ∈ r.offending ↔ (v = r.lop ∧ ¬ (0 ≤ v ∧ v < 2 ^ 8)) ∨ (v = r.laddr ∧ ¬ (0 ≤ v ∧ v < 2 ^ 12)) ∨
      (v = r.rop ∧ ¬ (0 ≤ v ∧ v < 2 ^ 8)) ∨ (v = r.raddr ∧ ¬ (0 ≤ v ∧ v < 2 ^ 12)) := by
  simp only [RawWord.offending, List.mem_filterMap, List.mem_cons, List.not_mem_nil, or_false, exists_eq_or_imp,
    exists_eq_left, pickUnfit_eq_some]

/-- R54: when no value offends. -/
theorem RawWord.offending_eq_nil (r : RawWord) :
    r.offending = [] ↔ (0 ≤ r.lop ∧ r.lop < 2 ^ 8) ∧ (0 ≤ r.laddr ∧ r.laddr < 2 ^ 12) ∧ (0 ≤ r.rop ∧ r.rop < 2 ^ 8) ∧
      (0 ≤ r.raddr ∧ r.raddr < 2 ^ 12) := by
  simp only [List.eq_nil_iff_forall_not_mem, RawWord.mem_offending, not_or, not_and_not_right, forall_and,
    forall_eq]

/-- R54: `MakeWord` succeeds where nothing offends. -/
theorem makeWord_of_fits {r : RawWord} (h : r.offending = []) :
    makeWord r = .ok ⟨.ofInt 8 r.lop, .ofInt 12 r.laddr, .ofInt 8 r.rop, .ofInt 12 r.raddr⟩ := by
  simp only [makeWord, h]

/-- R54, log entry 9: otherwise it records one of the offending values, whichever the free choice takes. -/
theorem makeWord_of_offending {r : RawWord} (h : r.offending ≠ []) : ∃ v ∈ r.offending, makeWord r = .error v := by
  unfold makeWord
  cases hr : r.offending with
  | nil => exact absurd hr h
  | cons v vs =>
    cases vs with
    | nil => exact ⟨v, List.mem_singleton_self v, rfl⟩
    | cons u us =>
      refine ⟨_, ?_, rfl⟩
      rw [List.getD_eq_getElem _ _ (Nat.mod_lt _ (by simp))]
      exact List.getElem_mem _

theorem toNat_ofInt_of_fits {n : Nat} {v : Int} (h : 0 ≤ v ∧ v < 2 ^ n) : ((BitVec.ofInt n v).toNat : Int) = v := by
  rw [BitVec.toNat_ofInt]
  push_cast
  rw [Int.toNat_of_nonneg (Int.emod_nonneg v (by positivity)), Int.emod_eq_of_lt h.1 h.2]

/-- R54: the bound of a width, as the spec writes it. -/
theorem lt_two_pow_field {v : Int} : (v < 2 ^ 8 ↔ v ≤ 255) ∧ (v < 2 ^ 12 ↔ v ≤ 4095) := by
  omega

/-- Settles O3: by whether a value offends. -/
theorem makeWordChecksEveryField : Obligations.MakeWordChecksEveryField := by
  intro r s
  simp only [← lt_two_pow_field.1, ← lt_two_pow_field.2, ← RawWord.offending_eq_nil]
  constructor
  · intro hfits
    obtain ⟨h1, h2, h3, h4⟩ := r.offending_eq_nil.mp hfits
    exact ⟨_, by rw [Machine.hostWord, makeWord_of_fits hfits], toNat_ofInt_of_fits h1, toNat_ofInt_of_fits h2,
      toNat_ofInt_of_fits h3, toNat_ofInt_of_fits h4⟩
  · intro hsome
    obtain ⟨v, hv, hmake⟩ := makeWord_of_offending hsome
    exact ⟨v, by rw [Machine.hostWord, hmake], (r.mem_offending v).mp hv⟩

end Sys2Proof
end

section
/-! PROOFS. The decoder and the encoder (30_encoding.md R53, R59 to R63, R68). -/

namespace Sys2Proof

/-- R59, R61: the decoder reads back what the encoder writes, in each row of the table. -/
@[simp] theorem decodeHalf_encodeHalf (i : Instr) : decodeHalf (encodeHalf i) = .ok i := by
  cases i <;> rfl

/-- R61, R63: the opcode selects the constructor and the address field is its argument. -/
theorem encodeHalf_of_decodeHalf {h : Half} {i : Instr} (hd : decodeHalf h = .ok i) : encodeHalf i = h := by
  have mk : ∀ op : Opcode, op.toNat = h.op.toNat → (⟨op, h.addr⟩ : Half) = h := fun op hop => by
    rw [BitVec.eq_of_toNat_eq hop]
  unfold decodeHalf at hd
  split at hd
  case h_23 => cases hd
  all_goals
    next hn =>
      cases hd
      exact mk _ hn.symm

theorem opcode_of_decodeHalf {h : Half} {i : Instr} (hd : decodeHalf h = .ok i) : i.opcode = h.op :=
  congrArg Half.op (encodeHalf_of_decodeHalf hd)

/-- R60, R62: opcode 0 is unallocated, so a half that decodes is populated. -/
theorem ne_zero_of_decodeHalf {h : Half} {i : Instr} (hd : decodeHalf h = .ok i) : h ≠ Half.zero := by
  rintro rfl
  exact absurd hd nofun

theorem encodeHalf_ne_zero (i : Instr) : encodeHalf i ≠ Half.zero :=
  ne_zero_of_decodeHalf (decodeHalf_encodeHalf i)

/-- R76, R77: the half a fetch takes first from a word with a populated left half. -/
theorem Word.firstHalf_of_left_ne_zero {w : Word} (h : w.left ≠ Half.zero) : w.firstHalf = w.left := if_neg h

/-- Settles O4: packing loses nothing, and each half is the encoding that was placed there. -/
theorem decodeOfEncodedWord : Obligations.DecodeOfEncodedWord := by
  intro i j _ _
  have hfirst : (encode i).firstHalf = encodeHalf i := Word.firstHalf_of_left_ne_zero (encodeHalf_ne_zero i)
  simp only [Word.unpack_pack]
  exact ⟨decodeHalf_encodeHalf i, decodeHalf_encodeHalf j, hfirst ▸ decodeHalf_encodeHalf i⟩

/-- Settles O5: `encodeHalf_of_decodeHalf`, arm by arm of the decoder. -/
theorem encodeOfDecodedHalf : Obligations.EncodeOfDecodedHalf := fun _ _ => encodeHalf_of_decodeHalf

/-- R61: each of the 22 opcodes has its arm in the decoder. -/
theorem exists_decodeHalf_of_allocated {h : Half} (hop : h.op.toNat ∈ Machine.allocated) :
    ∃ i, decodeHalf h = .ok i := by
  unfold decodeHalf
  split
  case h_23 => simp_all [Machine.allocated]
  all_goals exact ⟨_, rfl⟩

/-- Settles O6: the 22 arms, and the last one. -/
theorem decodeRejectsExactlyUnallocated : Obligations.DecodeRejectsExactlyUnallocated :=
  fun _ => ⟨exists_decodeHalf_of_allocated, decodeHalf_of_not_allocated⟩

/-- Settles O7: seven closed computations of the codec and the decoder. -/
theorem encodingExamplesDecode : Obligations.EncodingExamplesDecode := by
  refine ⟨⟨rfl, rfl, ?_⟩, ⟨rfl, ?_, ?_⟩, ⟨rfl, ?_, ?_⟩, ⟨rfl, ?_, ?_⟩, ⟨rfl, ?_, ?_⟩, ⟨rfl, ?_, ?_⟩,
    ?_, ?_, rfl, rfl⟩ <;> decide

end Sys2Proof
end

section
/-! PROOFS. The invariants of 10_state.md R29. Every operation of the machine is shown once to answer an outcome of the
kind that `OutcomeInv` names, whether it completes or faults; the statements about steps and host calls, completed
(StepAndHostCallsKeepInvariants) and faulted (FaultLeavesInvariants), are its two halves. -/

namespace Sys2Proof.Machine

/-- What R29 and R86 require of an outcome: a next state meets the invariants, and so does the state a fault leaves, but
for the accumulator after a `ConstructionError` (D33). -/
inductive OutcomeInv : Result → Prop where
  | next {t : State} (h : t.Inv) : OutcomeInv (.next t)
  | fault {f : Fault} (hb : f.left.Bounded) (hv : f.code ≠ 1 → f.left.ViewAgrees) : OutcomeInv (.fault f)

theorem outcomeInv_andThen {o : Result} {k : State → Result} (ho : OutcomeInv o) (hk : ∀ t, t.Inv → OutcomeInv (k t)) :
    OutcomeInv (andThen o k) := by
  cases ho with
  | next h => exact hk _ h
  | fault hb hv => exact .fault hb hv

/-! ### The shared operations -/

theorem State.Bounded.write {s : State} (h : s.Bounded) {ea : Int} (he : inMemory ea) (w : Word) :
    ({ s with mem := s.mem.write ea.toNat w } : State).Bounded := by
  obtain ⟨hmem, hrest⟩ := h
  obtain ⟨hpos, hlt⟩ := he
  exact ⟨Memory.write_wf s.mem ea.toNat w hmem (by omega), hrest⟩

theorem State.Inv.write {s : State} (h : s.Inv) {ea : Int} (he : inMemory ea) (w : Word) :
    ({ s with mem := s.mem.write ea.toNat w } : State).Inv :=
  ⟨h.1.write he w, h.2⟩

/-- A jump inside the memory puts `PC` below the limit, where the buffer may hold anything. -/
theorem State.Inv.jump {s : State} (h : s.Inv) {t : Int} (ht : inMemory t) (b : Option Half) :
    ({ s with pc := t.toNat, ibr := b } : State).Inv := by
  obtain ⟨⟨hmem, -, -, hbase, hmar⟩, hview⟩ := h
  obtain ⟨hpos, hlt⟩ := ht
  have hpc : t.toNat < Config.memSize := by omega
  exact ⟨⟨hmem, hpc.le, fun heq => absurd heq hpc.ne, hbase, hmar⟩, hview⟩

theorem outcomeInv_memoryAccess {s : State} (h : s.Inv) (ea : Int) : OutcomeInv (.fault (.memoryAccess ea s)) :=
  .fault h.1 fun _ => h.2

theorem outcomeInv_setAC {s : State} (h : s.Bounded) (v : Int) : OutcomeInv (setAC v s) := by
  obtain ⟨w, hw, he⟩ | ⟨-, he⟩ := setAC_cases v s <;> rw [he]
  · exact .next ⟨h, hw⟩
  · exact .fault h fun hcode => absurd rfl hcode

theorem outcomeInv_memWrite {s : State} (h : s.Inv) (ea : Int) (w : Word) : OutcomeInv (memWrite ea w s) := by
  obtain ⟨hin, he⟩ | ⟨-, he⟩ := memWrite_cases ea w s <;> rw [he]
  · exact .next (h.write hin w)
  · exact outcomeInv_memoryAccess h ea

/-! ### An instruction, a cycle and a step -/

theorem Shape.outcomeInv {i : Instr} {s : State} {o : Result} (ho : Shape i s o) (h : s.Inv) : OutcomeInv o := by
  cases ho with
  | load v => exact outcomeInv_setAC h.1 v
  | compute v => exact outcomeInv_setAC h.1 v
  | multiply v q => exact outcomeInv_andThen (outcomeInv_setAC h.1 v) fun _ ht => .next ht
  | divide v q => exact outcomeInv_andThen (outcomeInv_setAC h.1 v) fun _ ht => .next ht
  | setMQ => exact .next h
  | left t _ ht => exact .next (h.jump ht none)
  | right t _ ht => exact .next (h.jump ht _)
  | stay => exact .next h
  | store ea w _ _ he => exact .next (h.write he w)
  | halt => exact .next h
  | outside ea => exact outcomeInv_memoryAccess h ea
  | divideByZero => exact .fault h.1 fun _ => h.2

theorem outcomeInv_exec {s : State} (h : s.Inv) (i : Instr) : OutcomeInv (exec i s) :=
  (exec_shape i s).outcomeInv h

/-- Fetch advances `PC` from below the limit: the invariants give that with a pending half, and the read of the word
without one. -/
theorem outcomeInv_fetch {s : State} (h : s.Inv) : OutcomeInv (fetch s) := by
  obtain ⟨⟨hmem, hpc, hempty, hbase, hmar⟩, hview⟩ := h
  have haddr : ∀ x : Addr, x.toNat < 2 ^ 12 := fun x => x.isLt
  obtain ⟨p, hi, hf⟩ | ⟨hi, hlt, hf⟩ | ⟨hi, hge, hf⟩ := fetch_cases s <;> rw [hf]
  · have hlt : s.pc < Config.memSize := lt_of_le_of_ne hpc fun heq => nomatch hi.symm.trans (hempty heq)
    exact .next ⟨⟨hmem, hlt, fun _ => rfl, hbase, haddr _⟩, hview⟩
  · obtain ⟨-, hw⟩ | ⟨-, -, hw⟩ | ⟨-, -, hw⟩ :=
      fetchWord_cases (s.mem.read s.pc) { s with mar := s.pc, mbr := s.mem.read s.pc } <;> rw [hw]
    · exact .next ⟨⟨hmem, hlt, fun _ => hi, hbase, haddr _⟩, hview⟩
    · exact .next ⟨⟨hmem, hlt, fun _ => hi, hbase, haddr _⟩, hview⟩
    · exact .next ⟨⟨hmem, hpc, fun heq => absurd heq hlt.ne, hbase, haddr _⟩, hview⟩
  · have hmar : s.pc < 2 ^ 12 := lt_of_le_of_lt hpc (by decide)
    exact .fault ⟨hmem, hpc, hempty, hbase, hmar⟩ fun _ => hview

theorem outcomeInv_execute {s : State} (h : s.Inv) : OutcomeInv (execute s) := by
  obtain ⟨i, -, he⟩ | ⟨op, -, he⟩ := execute_cases s <;> rw [he]
  · exact outcomeInv_exec h i
  · exact .fault h.1 fun _ => h.2

theorem outcomeInv_cycle {s : State} (h : s.Inv) : OutcomeInv (cycle s) :=
  outcomeInv_andThen (outcomeInv_fetch h) fun _ => outcomeInv_execute

theorem outcomeInv_step {s : State} (h : s.Inv) : OutcomeInv (step s) := by
  obtain ⟨-, -, he⟩ | ⟨-, -, he⟩ | ⟨-, he⟩ := step_cases s <;> rw [he]
  · exact .next h
  · exact outcomeInv_cycle h
  · exact .next h

/-! ### The host's calls -/

theorem outcomeInv_runTurns {s : State} (h : s.Inv) (n : Nat) : OutcomeInv (runTurns n s) := by
  induction n generalizing s with
  | zero => exact .next h
  | succ n ih => exact outcomeInv_andThen (outcomeInv_step h) fun _ ht => ih ht

theorem outcomeInv_bulkLoadFrom {s : State} (h : s.Inv) (i : Nat) (ws : List Word) :
    OutcomeInv (bulkLoadFrom i ws s) := by
  induction ws generalizing i s with
  | nil => exact .next h
  | cons w ws ih =>
    rw [bulkLoadFrom_cons]
    exact outcomeInv_andThen (outcomeInv_memWrite h _ w) fun _ ht => ih ht (i + 1)

/-- R29, D19: the registers' values at creation, with `PC` at a base inside the memory. -/
theorem inv_registerReset {s : State} (h : s.Inv) : (registerReset s).Inv := by
  obtain ⟨⟨hmem, -, -, hbase, -⟩, -⟩ := h
  exact ⟨⟨hmem, hbase.le, fun _ => rfl, hbase, Nat.two_pow_pos 12⟩, viewOf_val s.params.viewPolicy Word.zero⟩

theorem inv_fullReset {s : State} (h : s.Inv) : (fullReset s).Inv := by
  obtain ⟨⟨-, hrest⟩, hview⟩ := inv_registerReset h
  exact ⟨⟨Memory.wf_nil, hrest⟩, hview⟩

theorem inv_setBase {s : State} (h : s.Inv) (b : Int) : (setBase b s).2.Inv := by
  obtain ⟨hb, he⟩ | ⟨-, he⟩ := setBase_cases b s <;> rw [he]
  · obtain ⟨⟨hmem, -, -, -, hmar⟩, hview⟩ := h
    obtain ⟨hpos, hlt⟩ := hb
    have hbase : b.toNat < Config.memSize := by omega
    exact ⟨⟨hmem, hbase.le, fun heq => absurd heq hbase.ne, hbase, hmar⟩, hview⟩
  · exact h

/-- The outcome that a single step records is no part of the invariants. -/
theorem outcomeInv_endStep {s : State} (h : s.Inv) : OutcomeInv (endStep s) := by
  rw [endStep_eq]
  exact .next h

theorem outcomeInv_singleStep {s : State} (h : s.Inv) (w : Word) : OutcomeInv (singleStep w s) := by
  rw [singleStep]
  refine outcomeInv_andThen (outcomeInv_memWrite h s.pc w) fun t ht => ?_
  have hstart : (startRun t).Inv := ht
  exact outcomeInv_andThen (outcomeInv_cycle hstart) fun _ => outcomeInv_endStep

theorem outcomeInv_bulkRun {s : State} (h : s.Inv) (fuel : Nat) (ws : List Word) : OutcomeInv (bulkRun fuel ws s) := by
  rw [bulkRun]
  refine outcomeInv_andThen (outcomeInv_bulkLoadFrom h 0 ws) fun t ht => ?_
  have hstart : (startRun t).Inv := ht
  exact outcomeInv_runTurns hstart fuel

theorem outcomeInv_hostCall {s : State} (h : s.Inv) (c : HostCall) : OutcomeInv (hostCall c s) := by
  cases c with
  | setBase b => exact .next (inv_setBase h b)
  | registerReset => exact .next (inv_registerReset h)
  | fullReset => exact .next (inv_fullReset h)
  | bulkLoad ws => exact outcomeInv_bulkLoadFrom h 0 ws
  | bulkRun fuel ws => exact outcomeInv_bulkRun h fuel ws
  | singleStep w => exact outcomeInv_singleStep h w

theorem OutcomeInv.of_next {t : State} (h : OutcomeInv (.next t)) : t.Inv := by
  cases h with
  | next h => exact h

theorem OutcomeInv.of_fault {f : Fault} (h : OutcomeInv (.fault f)) :
    f.left.Bounded ∧ (f.code ≠ 1 → f.left.ViewAgrees) := by
  cases h with
  | fault hb hv => exact ⟨hb, hv⟩

/-- Settles O11: the completed half of `OutcomeInv`. -/
theorem stepAndHostCallsKeepInvariants : Obligations.StepAndHostCallsKeepInvariants :=
  fun _ _ h =>
    ⟨fun hs => (hs ▸ outcomeInv_step h).of_next, fun c hc => (hc ▸ outcomeInv_hostCall h c).of_next⟩

/-- Settles O12: the faulted half of `OutcomeInv`. -/
theorem faultLeavesInvariants : Obligations.FaultLeavesInvariants := by
  rintro s f h (hs | ⟨c, hc⟩)
  · exact (hs ▸ outcomeInv_step h).of_fault
  · exact (hc ▸ outcomeInv_hostCall h c).of_fault

/-! ### Creation -/

/-- Settles O10: the empty memory is in canonical form, and the zero word is the view of 0. -/
theorem creationMeetsInvariants : Obligations.CreationMeetsInvariants := by
  have hcreate : ∀ p : Params, (State.create p).Inv := fun p =>
    ⟨⟨Memory.wf_nil, Nat.zero_le _, fun _ => rfl, Nat.zero_lt_succ _, Nat.two_pow_pos 12⟩,
      viewOf_val p.viewPolicy Word.zero⟩
  exact ⟨hcreate, hcreate _⟩

/-- Settles O9: the fields that creation and the resets write; an empty memory reads as zero words. -/
theorem creationAndResetValues : Obligations.CreationAndResetValues :=
  ⟨fun _ => ⟨Memory.read_nil, rfl, rfl⟩, fun _ => ⟨fun _ => rfl, rfl, rfl⟩, fun _ => ⟨Memory.read_nil, rfl, rfl⟩⟩

end Sys2Proof.Machine
end

section
/-! PROOFS. The cycle (40_fetch_execute.md R73 to R79, R83, R87): what the fetch leaves, and that the step executes the half
it took. -/

namespace Sys2Proof.Machine

/-! ### Fetch -/

/-- R78: a populated pair. -/
theorem fetchWord_of_pair {w : Word} (hl : w.left ≠ Half.zero) (hr : w.right ≠ Half.zero) (s : State) :
    fetchWord w s = { take w.left s with ibr := some w.right } := by
  obtain ⟨hl', -⟩ | ⟨-, hr', -⟩ | ⟨-, -, hf⟩ := fetchWord_cases w s
  · exact absurd hl' hl
  · exact absurd hr' hr
  · exact hf

/-- Settles O14: the faulting case of `fetch_cases`. -/
theorem fetchOutsideMemoryFaults : Obligations.FetchOutsideMemoryFaults := by
  intro s hi hp
  obtain ⟨h, hi', -⟩ | ⟨-, hin, -⟩ | ⟨-, -, hf⟩ := fetch_cases s
  · exact absurd (hi.symm.trans hi') nofun
  · exact absurd hin (Nat.not_lt.mpr hp)
  · exact hf

/-- Settles O17: the memory case of Fetch, with a populated pair. -/
theorem fetchBuffersTheRightHalf : Obligations.FetchBuffersTheRightHalf := by
  intro s hi hp w hl hr
  rw [fetch_of_empty hi hp,
    fetchWord_of_pair (mt (Word.left_eq_zero_iff w).mp hl) (mt (Word.right_eq_zero_iff w).mp hr)]
  rfl

/-! ### The step -/

/-- R79: Execute decodes the half whose fields stand in `IR` and `MAR`. -/
theorem execute_of_decodeHalf {s : State} {h : Half} {i : Instr} (hir : s.ir = h.op) (hmar : s.mar = h.addr.toNat)
    (hd : decodeHalf h = .ok i) : execute s = exec i s := by
  have hhalf : (⟨s.ir, .ofNat 12 s.mar⟩ : Half) = h := by rw [hir, hmar, BitVec.ofNat_toNat, BitVec.setWidth_eq]
  rw [execute, hhalf, hd]

/-- R73, R79: the step executes the half that its fetch took. -/
theorem step_of_fetch_half {s t : State} {h : Half} {i : Instr} (hr : s.run = .running) (hp : s.pc ≤ 1023)
    (hf : fetch s = .next t) (hir : t.ir = h.op) (hmar : t.mar = h.addr.toNat) (hd : decodeHalf h = .ok i) :
    step s = exec i t := by
  rw [step_of_fetch_next hr (Nat.lt_succ_of_le hp).ne hf]
  exact execute_of_decodeHalf hir hmar hd

/-- Settles O18: one equation of Fetch per case, and `step_of_fetch_half` for the half it takes. -/
theorem stepRunsDecodedInstruction : Obligations.StepRunsDecodedInstruction := by
  intro s i hr hp w
  refine ⟨fun h hi hd => ?_, fun hi hl hd => ?_, fun hi hl hz hd => ?_, fun hi hl hz hd => ?_⟩
  · exact step_of_fetch_half hr hp (fetchConsumesPendingHalf s h hi) rfl rfl hd
  · exact step_of_fetch_half hr hp ((fetchTakesTheOnlyHalf s hi hp).1 (w.left_eq_zero_iff.mp hl)) rfl rfl hd
  · exact step_of_fetch_half hr hp
      ((fetchTakesTheOnlyHalf s hi hp).2 (mt w.left_eq_zero_iff.mpr hl) (w.right_eq_zero_iff.mp hz)) rfl rfl hd
  · exact step_of_fetch_half hr hp
      (fetchBuffersTheRightHalf s hi hp (mt w.left_eq_zero_iff.mpr hl) (mt w.right_eq_zero_iff.mpr hz)) rfl rfl hd

/-- The half of a table word that decodes stands in the left half, for an all-zero half is no instruction (R60). -/
theorem decodeHalf_tableHalf {n w : Nat} {i : Instr} (h : decodeTableWord n w = some i) :
    decodeHalf (tableHalf n w) = .ok i := by
  have hd : decodeHalf (tableWord n w).firstHalf = .ok i := by
    unfold decodeTableWord at h
    split at h
    · next hd => rw [hd, Option.some.inj h]
    · cases h
  have hleft : (tableWord n w).left ≠ Half.zero := fun hz => by
    rw [Word.firstHalf, if_pos hz] at hd
    exact ne_zero_of_decodeHalf hd rfl
  rwa [Word.firstHalf_of_left_ne_zero hleft] at hd

/-- Settles O19: the placed word is read where the step fetches, and holds its one instruction on the left. -/
theorem stepRunsThePlacedWord : Obligations.StepRunsThePlacedWord := by
  intro s n w i hp h
  have hd := decodeHalf_tableHalf h
  have hplace : s.withFetchWord n w =
      { s with run := .running, ibr := none, mem := s.mem.write s.pc (tableWord n w) } := by
    simp only [State.withFetchWord, placeNext, if_pos (show s.pc < Config.memSize from Nat.lt_succ_of_le hp)]
  have hread : (s.withFetchWord n w).mem.read (s.withFetchWord n w).pc = tableWord n w := by
    rw [hplace]
    exact Memory.read_write_same _ _ _
  obtain ⟨-, -, hleft, -⟩ :=
    stepRunsDecodedInstruction (s.withFetchWord n w) i (by rw [hplace]) (by rw [hplace]; exact hp)
  rw [hread] at hleft
  rw [hleft (by rw [hplace]) (ne_zero_of_decodeHalf hd) rfl hd, hplace]
  rfl

/-- R55: what the fields of a word of value below 4096 are. -/
theorem fields_of_val_lt {w : Word} (h : w.val < 4096) :
    (w.lop = 0 ∧ w.laddr = 0) ∧ w.rop = 0 ∧ w.raddr.toNat = w.val.toNat := by
  obtain ⟨hsum, -⟩ := valueIsWeightedFieldSum w
  refine ⟨⟨BitVec.eq_of_toNat_eq ?_, BitVec.eq_of_toNat_eq ?_⟩, BitVec.eq_of_toNat_eq ?_, ?_⟩
  · change w.lop.toNat = 0
    omega
  · change w.laddr.toNat = 0
    omega
  · change w.rop.toNat = 0
    omega
  · omega

/-- Settles O16: the right half is taken, its opcode is 0, and Execute faults with it. -/
theorem smallDataWordFaultsAsOpcodeZero : Obligations.SmallDataWordFaultsAsOpcodeZero := by
  intro s hr hi hp w hw
  obtain ⟨hleft, hrop, hraddr⟩ := fields_of_val_lt hw
  have hf := (fetchTakesTheOnlyHalf s hi hp).1 hleft
  rw [hrop, hraddr] at hf
  exact unallocatedOpcodeFaults s _ hr (Nat.lt_succ_of_le hp).ne hf (.inl (by simp))

/-! ### The run's end -/

/-- R83: a run at the limit completes. -/
theorem step_at_limit {s : State} (hr : s.run = .running) (hp : s.pc = Config.memSize) :
    step s = .next { s with run := .completed } := by
  obtain ⟨-, -, h⟩ | ⟨-, hn, -⟩ | ⟨hn, -⟩ := step_cases s
  · exact h
  · exact absurd hp hn
  · exact absurd hr hn

/-- R149, log entry 5: a run that has ended stands still. -/
theorem step_ended {s : State} (hr : s.run ≠ .running) : step s = .next s := by
  obtain ⟨hn, -⟩ | ⟨hn, -⟩ | ⟨-, h⟩ := step_cases s
  · exact absurd hn hr
  · exact absurd hn hr
  · exact h

/-- Settles O23: two of the three cases of `step_cases`. -/
theorem runEndsAtTheMemoryLimit : Obligations.RunEndsAtTheMemoryLimit := fun _ => ⟨step_at_limit, step_ended⟩

/-- Log entry 11: the turns of two amounts of fuel are the turns of the one, then of the other. -/
theorem runTurns_add (n m : Nat) (s : State) : runTurns (n + m) s = andThen (runTurns n s) (runTurns m) := by
  induction n generalizing s with
  | zero => rw [Nat.zero_add]; rfl
  | succ n ih =>
    rw [Nat.succ_add, runTurns_succ, runTurns_succ]
    cases step s with
    | next t => exact ih t
    | fault f => rfl
    | refused r => rfl

/-- R149, log entry 5: an ended run stands still for any number of turns. -/
theorem runTurns_ended (n : Nat) {s : State} (hr : s.run ≠ .running) : runTurns n s = .next s := by
  induction n with
  | zero => rfl
  | succ n ih => rw [runTurns_succ, step_ended hr, andThen_next_left, ih]

/-- Settles O27: the first `n` turns end the run (`runTurns_add`), and the others stand still (`runTurns_ended`). -/
theorem fuelNeverChangesAnEndedRun : Obligations.FuelNeverChangesAnEndedRun := by
  intro n m s
  refine ⟨fun t ht hr => ?_, fun f hf => ?_⟩
  · rw [runTurns_add, ht, andThen_next_left, runTurns_ended m hr]
  · rw [runTurns_add, hf, andThen_fault_left]

/-- Settles O25: the halt's equation, and that an ended run stands still. -/
theorem haltStopsTheRun : Obligations.HaltStopsTheRun := by
  intro x s
  refine ⟨exec_hlt x s, fun n => runTurns_ended n nofun, fun hr => ?_⟩
  simp only [startRun, ← hr]

end Sys2Proof.Machine
end

section
/-! PROOFS. What an instruction that completes writes, and by which opcodes (40_fetch_execute.md R80): `Shape` with the
accumulator's `SetAC` resolved. Each frame over the dispatch table is read off the forms of `Written`. -/

namespace Sys2Proof.Machine

/-- The next states of an instruction, by what it writes. -/
inductive Written (i : Instr) (s : State) : State → Prop where
  | acc (v : Int) (w : Word) (hi : i.opcode.toNat ∈ [1, 2, 3, 4, 5, 6, 7, 8, 10, 20, 21]) :
      Written i s { s with acVal := v, acView := w }
  | accMq (v : Int) (w : Word) (q : Int) (hi : i.opcode.toNat ∈ [11, 12]) :
      Written i s { s with acVal := v, acView := w, mq := q }
  | mq (q : Int) (hi : i.opcode.toNat = 9) : Written i s { s with mq := q }
  | jump (p : Nat) (b : Option Half) (hi : i.opcode.toNat ∈ [13, 14, 15, 16]) : Written i s { s with pc := p, ibr := b }
  | store (a : Nat) (w : Word) (hi : i.opcode.toNat ∈ [18, 19, 33]) (ha : storeAddress i s = some (a : Int)) :
      Written i s { s with mem := s.mem.write a w }
  | halt (hi : i.opcode.toNat = 50) : Written i s { s with run := .halted }

/-- R16: what `SetAC` writes when it completes. -/
theorem setAC_next {v : Int} {s t : State} (h : setAC v s = .next t) :
    ∃ w, viewOf s.params.viewPolicy v = some w ∧ t = { s with acVal := v, acView := w } := by
  obtain ⟨w, hw, he⟩ | ⟨-, he⟩ := setAC_cases v s <;> rw [he] at h
  · cases h
    exact ⟨w, hw, rfl⟩
  · cases h

/-- R104, R105: what an instruction writes that sets the accumulator and then `MQ`. -/
theorem setAC_setMQ_next {v q : Int} {s t : State} (h : andThen (setAC v s) (fun u => .next (setMQ q u)) = .next t) :
    ∃ w, t = { s with acVal := v, acView := w, mq := q } := by
  obtain ⟨u, hu, he⟩ := andThen_next.mp h
  obtain ⟨w, -, rfl⟩ := setAC_next hu
  cases he
  exact ⟨w, rfl⟩

theorem Shape.written {i : Instr} {s t : State} {o : Result} (hs : Shape i s o) (ho : o = .next t) : Written i s t := by
  cases hs with
  | load v hi =>
    obtain ⟨w, -, rfl⟩ := setAC_next ho
    exact .acc v w ((by decide : [1, 2, 3] ⊆ [1, 2, 3, 4, 5, 6, 7, 8, 10, 20, 21]) hi)
  | compute v hi =>
    obtain ⟨w, -, rfl⟩ := setAC_next ho
    exact .acc v w ((by decide : [4, 5, 6, 7, 8, 10, 20, 21] ⊆ [1, 2, 3, 4, 5, 6, 7, 8, 10, 20, 21]) hi)
  | multiply v q hi =>
    obtain ⟨w, rfl⟩ := setAC_setMQ_next ho
    exact .accMq v w q (by simp [hi])
  | divide v q hi =>
    obtain ⟨w, rfl⟩ := setAC_setMQ_next ho
    exact .accMq v w q (by simp [hi])
  | setMQ q hi => cases ho; exact .mq q hi
  | left p hi => cases ho; exact .jump _ _ ((by decide : [13, 15] ⊆ [13, 14, 15, 16]) hi)
  | right p hi => cases ho; exact .jump _ _ ((by decide : [14, 16] ⊆ [13, 14, 15, 16]) hi)
  | stay hi => cases ho; exact .jump _ _ ((by decide : [15, 16] ⊆ [13, 14, 15, 16]) hi)
  | store ea w hi ha he =>
    cases ho
    exact .store _ w hi (by rw [ha, Int.toNat_of_nonneg he.1])
  | halt hi => cases ho; exact .halt hi
  | outside => cases ho
  | divideByZero => cases ho

theorem written_of_exec {i : Instr} {s t : State} (h : exec i s = .next t) : Written i s t :=
  (exec_shape i s).written h

/-- Settles O28: of the forms of `Written`, only a jump's names `PC` or `IBR`. -/
theorem onlyJumpsWritePcAndBuffer : Obligations.OnlyJumpsWritePcAndBuffer := by
  intro i s t h hi
  cases written_of_exec h with
  | jump p b hj => exact absurd hj hi
  | _ => exact ⟨rfl, rfl⟩

/-- Settles O29: no form of `Written` names these registers. -/
theorem noInstructionWritesFetchRegisters : Obligations.NoInstructionWritesFetchRegisters := by
  intro i s t h
  cases written_of_exec h <;> exact ⟨rfl, rfl, rfl, rfl, rfl, rfl⟩

/-- Settles O30: only a store's form names the memory, at the address it stores to. -/
theorem onlyTheStoredWordChanges : Obligations.OnlyTheStoredWordChanges := by
  intro i s t h b hb
  cases written_of_exec h with
  | store a w _ ha => exact Memory.read_write_other s.mem a b w fun hab => hb (hab ▸ ha)
  | _ => rfl

/-- Settles O31: the two forms that name `AC`, and the two that name `MQ`. -/
theorem writersOfAccumulatorAndMq : Obligations.WritersOfAccumulatorAndMq := by
  intro i s t h
  cases written_of_exec h with
  | acc v w hi =>
    have hsub : [1, 2, 3, 4, 5, 6, 7, 8, 10, 20, 21] ⊆ [1, 2, 3, 4, 5, 6, 7, 8, 10, 11, 12, 20, 21] := by decide
    exact ⟨fun hn => absurd (hsub hi) hn, fun _ => rfl⟩
  | accMq v w q hi =>
    have hacc : [11, 12] ⊆ [1, 2, 3, 4, 5, 6, 7, 8, 10, 11, 12, 20, 21] := by decide
    have hmq : [11, 12] ⊆ [9, 11, 12] := by decide
    exact ⟨fun hn => absurd (hacc hi) hn, fun hn => absurd (hmq hi) hn⟩
  | mq q hi => exact ⟨fun _ => ⟨rfl, rfl⟩, fun hn => absurd (by simp [hi]) hn⟩
  | _ => exact ⟨fun _ => ⟨rfl, rfl⟩, fun _ => rfl⟩

/-- Settles O26: only the halt's form names the run's status, and its opcode is 50. -/
theorem onlyHaltEndsTheRun : Obligations.OnlyHaltEndsTheRun := by
  intro i s t h hi
  cases written_of_exec h with
  | halt h50 => exact absurd (BitVec.eq_of_toNat_eq h50) hi
  | _ => rfl

/-- R130, R132: a completed instruction halts the run exactly when its opcode is 50, and otherwise leaves its status. -/
theorem run_of_exec {i : Instr} {s t : State} (h : exec i s = .next t) :
    t.run = if i.opcode = 0x32 then .halted else s.run := by
  split
  · next hi =>
    have h50 : i.opcode.toNat = 50 := by rw [hi]; rfl
    cases written_of_exec h with
    | halt => rfl
    | acc _ _ hn | accMq _ _ _ hn | mq _ hn | jump _ _ hn | store _ _ hn => simp [h50] at hn
  · next hi => exact onlyHaltEndsTheRun i s t h hi

/-- Settles O33: the meanings of these four opcodes take no address. -/
theorem addressFieldIgnored : Obligations.AddressFieldIgnored := fun _ _ _ => ⟨rfl, rfl, rfl, rfl⟩

end Sys2Proof.Machine
end

section
/-! PROOFS. No instruction but a jump reads the registers that Fetch writes (10_state.md R20, R23): each shared operation
commutes with other contents there, and so does each instruction. -/

namespace Sys2Proof.Machine

/-- The state with other contents of `PC`, `MAR`, `MBR` and `IR`. -/
def State.refetched (n m : Nat) (w : Word) (o : Opcode) (s : State) : State :=
  { s with pc := n, mar := m, mbr := w, ir := o }

/-- Where the first outcome completes, the second completes with its state changed by `g`. -/
structure Carries (g : State → State) (o o' : Result) : Prop where
  next : ∀ t, o = .next t → o' = .next (g t)

theorem carries_next (g : State → State) (s : State) : Carries g (.next s) (.next (g s)) := by
  refine ⟨fun t ht => ?_⟩
  cases ht
  rfl

theorem carries_raise (g : State → State) (f : State → Fault) (s : State) (o : Result) : Carries g (raise f s) o := ⟨nofun⟩

theorem carries_andThen {g : State → State} {o o' : Result} {k : State → Result} (ho : Carries g o o')
    (hk : ∀ t, Carries g (k t) (k (g t))) : Carries g (andThen o k) (andThen o' k) := by
  refine ⟨fun t ht => ?_⟩
  obtain ⟨u, hu, hkt⟩ := andThen_next.mp ht
  rw [ho.next u hu]
  exact (hk u).next t hkt

theorem carries_ite {g : State → State} {c : Prop} [Decidable c] {o p o' p' : Result} (ho : Carries g o o')
    (hp : Carries g p p') : Carries g (if c then o else p) (if c then o' else p') := by
  split
  · exact ho
  · exact hp

section
variable (n m : Nat) (w : Word) (o : Opcode)

theorem carries_memRead (ea : Int) (s : State) {k k' : Word → Result}
    (hk : ∀ v, Carries (State.refetched n m w o) (k v) (k' v)) :
    Carries (State.refetched n m w o) (memRead ea s k) (memRead ea (s.refetched n m w o) k') := by
  refine ⟨fun t ht => ?_⟩
  obtain ⟨hin, hkt⟩ := memRead_next.mp ht
  rw [memRead_in hin]
  exact (hk _).next t hkt

theorem carries_operandVal (ea : Int) (s : State) {k k' : Int → Result}
    (hk : ∀ v, Carries (State.refetched n m w o) (k v) (k' v)) :
    Carries (State.refetched n m w o) (operandVal ea s k) (operandVal ea (s.refetched n m w o) k') :=
  carries_memRead n m w o ea s fun v => hk v.val

theorem carries_operandAbs (ea : Int) (s : State) {k k' : Int → Result}
    (hk : ∀ v, Carries (State.refetched n m w o) (k v) (k' v)) :
    Carries (State.refetched n m w o) (operandAbs ea s k) (operandAbs ea (s.refetched n m w o) k') :=
  carries_operandVal n m w o ea s fun v => hk v.natAbs

theorem carries_memWrite (ea : Int) (v : Word) (s : State) :
    Carries (State.refetched n m w o) (memWrite ea v s) (memWrite ea v (s.refetched n m w o)) := by
  refine ⟨fun t ht => ?_⟩
  obtain ⟨hin, he⟩ | ⟨-, he⟩ := memWrite_cases ea v s <;> rw [he] at ht
  · cases ht
    exact if_pos hin
  · cases ht

theorem carries_setAC (v : Int) (s : State) :
    Carries (State.refetched n m w o) (setAC v s) (setAC v (s.refetched n m w o)) := by
  refine ⟨fun t ht => ?_⟩
  obtain ⟨view, hview, rfl⟩ := setAC_next ht
  have hview' : viewOf (s.refetched n m w o).params.viewPolicy v = some view := hview
  rw [setAC, hview']
  rfl

theorem carries_setAC_setMQ (v q : Int) (s : State) :
    Carries (State.refetched n m w o) (andThen (setAC v s) fun t => .next (setMQ q t))
      (andThen (setAC v (s.refetched n m w o)) fun t => .next (setMQ q t)) :=
  carries_andThen (carries_setAC n m w o v s) fun t => carries_next _ (setMQ q t)

/-- R20, R23: an instruction that is no jump commutes with other contents of the registers that Fetch writes. -/
theorem carries_exec (i : Instr) (s : State) (hi : i.opcode.toNat ∉ [13, 14, 15, 16]) :
    Carries (State.refetched n m w o) (exec i s) (exec i (s.refetched n m w o)) := by
  cases i with
  | loadM a =>
    rw [exec_loadM, exec_loadM]
    exact carries_operandVal n m w o _ s fun _ => carries_setAC n m w o _ s
  | loadBackM a =>
    rw [exec_loadBackM, exec_loadBackM]
    exact carries_operandVal n m w o _ s fun _ => carries_setAC n m w o _ s
  | addM a =>
    rw [exec_addM, exec_addM]
    exact carries_operandVal n m w o _ s fun _ => carries_setAC n m w o _ s
  | subM a =>
    rw [exec_subM, exec_subM]
    exact carries_operandVal n m w o _ s fun _ => carries_setAC n m w o _ s
  | loadAbsM a =>
    rw [exec_loadAbsM, exec_loadAbsM]
    exact carries_operandAbs n m w o _ s fun _ => carries_setAC n m w o _ s
  | loadNegAbsM a =>
    rw [exec_loadNegAbsM, exec_loadNegAbsM]
    exact carries_operandAbs n m w o _ s fun _ => carries_setAC n m w o _ s
  | addAbsM a =>
    rw [exec_addAbsM, exec_addAbsM]
    exact carries_operandAbs n m w o _ s fun _ => carries_setAC n m w o _ s
  | subAbsM a =>
    rw [exec_subAbsM, exec_subAbsM]
    exact carries_operandAbs n m w o _ s fun _ => carries_setAC n m w o _ s
  | loadMQM a =>
    rw [exec_loadMQM, exec_loadMQM]
    exact carries_operandVal n m w o _ s fun v => carries_next _ (setMQ v s)
  | mulM a =>
    rw [exec_mulM, exec_mulM]
    exact carries_operandVal n m w o _ s fun _ => carries_setAC_setMQ n m w o _ _ s
  | divM a =>
    rw [exec_divM, exec_divM]
    exact carries_ite (carries_raise _ _ _ _) <| carries_operandVal n m w o _ s fun _ =>
      carries_ite (carries_raise _ _ _ _) (carries_setAC_setMQ n m w o _ _ s)
  | loadMQ x => rw [exec_loadMQ, exec_loadMQ]; exact carries_setAC n m w o _ s
  | lsh x => rw [exec_lsh, exec_lsh]; exact carries_setAC n m w o _ s
  | rsh x => rw [exec_rsh, exec_rsh]; exact carries_setAC n m w o _ s
  | storLeftAddr a =>
    rw [exec_storLeftAddr, exec_storLeftAddr]
    exact carries_memRead n m w o _ s fun _ => carries_memWrite n m w o _ _ s
  | storRightAddr a =>
    rw [exec_storRightAddr, exec_storRightAddr]
    exact carries_memRead n m w o _ s fun _ => carries_memWrite n m w o _ _ s
  | storM a => rw [exec_storM, exec_storM]; exact carries_memWrite n m w o _ _ s
  | hlt x => rw [exec_hlt, exec_hlt]; exact carries_next _ { s with run := .halted }
  | jumpLeft | jumpRight | jumpPlusLeft | jumpPlusRight => exact absurd (by simp [Instr.opcode]) hi

end

/-- Settles O32: `carries_exec`, for the contents that the statement names. -/
theorem noInstructionReadsFetchRegisters : Obligations.NoInstructionReadsFetchRegisters :=
  fun i s t n m w o h hi => (carries_exec n m w o i s hi).next t h

end Sys2Proof.Machine
end

section
/-! PROOFS. How a run goes on from one cycle to the next (40_fetch_execute.md R83, R87; 43_control_transfer.md R108;
70_reset_and_hazards.md R162). -/

namespace Sys2Proof.Machine

/-- Fetch leaves the run's status. -/
theorem run_of_fetch {s t : State} (h : fetch s = .next t) : t.run = s.run := by
  obtain ⟨p, -, hf⟩ | ⟨-, -, hf⟩ | ⟨-, -, hf⟩ := fetch_cases s <;> rw [hf] at h <;> cases h
  · rfl
  · obtain ⟨-, hw⟩ | ⟨-, -, hw⟩ | ⟨-, -, hw⟩ :=
      fetchWord_cases (s.mem.read s.pc) { s with mar := s.pc, mbr := s.mem.read s.pc } <;> rw [hw] <;> rfl

/-- A cycle that completes has executed an instruction with the opcode that its fetch left in `IR`. -/
theorem cycle_next {s t : State} (h : cycle s = .next t) :
    ∃ u i, fetch s = .next u ∧ i.opcode = u.ir ∧ exec i u = .next t := by
  obtain ⟨u, hu, he⟩ := andThen_next.mp h
  obtain ⟨i, hd, hi⟩ | ⟨op, -, hf⟩ := execute_cases u
  · exact ⟨u, i, hu, opcode_of_decodeHalf hd, hi.symm.trans he⟩
  · exact absurd (hf.symm.trans he) nofun

/-- R130, R132: a completed cycle of a running machine has halted the run exactly when it leaves opcode 50 in `IR`. -/
theorem run_of_cycle {s t : State} (hr : s.run = .running) (h : cycle s = .next t) :
    t.run = if t.ir = 0x32 then .halted else .running := by
  obtain ⟨u, i, hf, hop, he⟩ := cycle_next h
  obtain ⟨hir, -⟩ := noInstructionWritesFetchRegisters i u t he
  rw [run_of_exec he, run_of_fetch hf, hr, hop, hir]

/-- Settles O24: a cycle leaves a run `running` or `halted`, so only the limit test completes it. -/
theorem completedOnlyAtTheMemoryLimit : Obligations.CompletedOnlyAtTheMemoryLimit := by
  intro s t hr h
  obtain ⟨-, hp, he⟩ | ⟨-, -, he⟩ | ⟨hn, -⟩ := step_cases s
  · cases he.symm.trans h
    exact ⟨fun _ => ⟨hp, rfl⟩, nofun⟩
  · have hrun := run_of_cycle hr (he.symm.trans h)
    refine ⟨fun hc => ?_, fun hc => ?_⟩ <;>
    · rw [hc] at hrun
      split at hrun <;> cases hrun
  · exact absurd hr hn

/-- R74, R87: a running machine with a pending right half that decodes runs that half next. -/
theorem step_pending_half {t : State} {w : Word} {j : Instr} (hr : t.run = .running) (hp : t.pc ≤ 1023)
    (hi : t.ibr = some w.right) (hd : decodeHalf w.right = .ok j) :
    step t = exec j { t with ir := w.rop, mar := w.raddr.toNat, ibr := none, pc := t.pc + 1 } :=
  (stepRunsDecodedInstruction t j hr hp).1 w.right hi hd

/-- R78, R87: the left half of a pair runs on the state that buffers the right one. -/
theorem step_left_half {s : State} {i j : Instr} (hr : s.run = .running) (hi : s.ibr = none) (hp : s.pc ≤ 1023)
    (hl : decodeHalf (s.mem.read s.pc).left = .ok i) (hj : decodeHalf (s.mem.read s.pc).right = .ok j) :
    step s = exec i { s with mbr := s.mem.read s.pc, ir := (s.mem.read s.pc).lop, mar := (s.mem.read s.pc).laddr.toNat,
                             ibr := some (s.mem.read s.pc).right } := by
  obtain ⟨-, -, -, hpair⟩ := stepRunsDecodedInstruction s i hr hp
  exact hpair hi (ne_zero_of_decodeHalf hl) (ne_zero_of_decodeHalf hj) hl

/-- Settles O21: the left half, being no jump and no halt, leaves `PC`, the buffer and the run as the fetch left them, so
the next step takes the buffered half. -/
theorem pairRunsLeftThenRight : Obligations.PairRunsLeftThenRight := by
  intro s t i j hr hi hp w hl hj hop h
  rw [step_left_half hr hi hp hl hj] at h
  have hjump : i.opcode.toNat ∉ [13, 14, 15, 16] := fun hm => hop (List.mem_append_left [50] hm)
  have hhalt : i.opcode ≠ 0x32 := fun he => hop (by rw [he]; decide)
  obtain ⟨hpc, hibr⟩ := onlyJumpsWritePcAndBuffer i _ t h hjump
  have hrun : t.run = .running := (onlyHaltEndsTheRun i _ t h hhalt).trans hr
  refine ⟨hpc, hibr, ?_⟩
  have hpc' : t.pc = s.pc := hpc
  rw [step_pending_half hrun (hpc' ▸ hp) hibr hj, hpc']

/-! ### Stores and jumps to a right half -/

/-- R39: the completing case of `memWrite_cases`. -/
theorem memWrite_in {ea : Int} (h : inMemory ea) (w : Word) (s : State) :
    memWrite ea w s = .next { s with mem := s.mem.write ea.toNat w } := by
  obtain ⟨-, he⟩ | ⟨hn, -⟩ := memWrite_cases ea w s
  · exact he
  · exact absurd h hn

/-- R40: the completing case of `memWriteField_cases`. -/
theorem memWriteField_in {ea : Int} (h : inMemory ea) (f : AddrField) (v : Addr) (s : State) :
    memWriteField ea f v s = .next { s with mem := s.mem.write ea.toNat (setField (s.mem.read ea.toNat) f v) } := by
  obtain ⟨-, he⟩ | ⟨hn, -⟩ := memWriteField_cases ea f v s
  · exact he
  · exact absurd h hn

/-- R162: a left half that stores the word `v` into its own word leaves `v` there, and the next step runs the right half
that was fetched before. -/
theorem stale_right_half {s : State} {i j : Instr} {v : Word} (hr : s.run = .running) (hi : s.ibr = none)
    (hp : s.pc ≤ 1023) (hl : decodeHalf (s.mem.read s.pc).left = .ok i) (hj : decodeHalf (s.mem.read s.pc).right = .ok j)
    (hop : i.opcode.toNat ∉ [13, 14, 15, 16, 50])
    (hstore : ∀ u : State, u.mem = s.mem → u.base = s.base → u.acView = s.acView →
      exec i u = .next { u with mem := u.mem.write s.pc v }) :
    ∃ t, step s = .next t ∧ t.mem.read s.pc = v ∧ t.pc = s.pc ∧ t.ibr = some (s.mem.read s.pc).right ∧
      step t = exec j { t with ir := (s.mem.read s.pc).rop, mar := (s.mem.read s.pc).raddr.toNat, ibr := none,
                               pc := s.pc + 1 } := by
  have hs := (step_left_half hr hi hp hl hj).trans (hstore _ rfl rfl rfl)
  exact ⟨_, hs, Memory.read_write_same _ _ _, pairRunsLeftThenRight s _ i j hr hi hp hl hj hop hs⟩

/-- Settles O22: the three stores, each to the address of the executing word. -/
theorem bufferedHalfIsStale : Obligations.BufferedHalfIsStale := by
  intro s a j hr hi hp hea w c hc hl hj
  have hat : ∀ u : State, u.base = s.base → eaForward u a = s.pc := fun u hb => by
    rw [← hea, eaForward, eaForward, hb]
  have hin : ∀ u : State, u.base = s.base → inMemory (eaForward u a) := fun u hb => by
    simp only [hat u hb, inMemory, Config.memSize]
    omega
  simp only [List.mem_cons, List.not_mem_nil, or_false] at hc
  obtain rfl | rfl | rfl := hc
  · refine stale_right_half hr hi hp hl hj (by simp [Instr.opcode]) fun u hm hb hv => ?_
    rw [exec_storLeftAddr, memWriteField_in (hin u hb), hat u hb, Int.toNat_natCast, hv, hm, setField_laddr]
  · refine stale_right_half hr hi hp hl hj (by simp [Instr.opcode]) fun u hm hb hv => ?_
    rw [exec_storRightAddr, memWriteField_in (hin u hb), hat u hb, Int.toNat_natCast, hv, hm, setField_raddr]
  · refine stale_right_half hr hi hp hl hj (by simp [Instr.opcode]) fun u hm hb hv => ?_
    rw [exec_storM, memWrite_in (hin u hb), hat u hb, Int.toNat_natCast, hv]

/-- R110: an unconditional jump to a left half of an existing word. -/
theorem goLeft_in {s : State} {a : Addr} (h : s.base + a.toNat ≤ 1023) :
    goLeft (eaForward s a) s = .next { s with pc := s.base + a.toNat, ibr := none } := by
  rw [← eaForward_toNat s a]
  obtain ⟨-, he⟩ | ⟨hn, -⟩ := goLeft_cases (eaForward s a) s
  · exact he
  · exact absurd ((inMemory_eaForward s a).mpr h) hn

/-- R111: an unconditional jump to a right half of an existing word. -/
theorem goRight_in {s : State} {a : Addr} (h : s.base + a.toNat ≤ 1023) :
    goRight (eaForward s a) s =
      .next { s with pc := s.base + a.toNat, ibr := some (s.mem.read (s.base + a.toNat)).right } := by
  rw [← eaForward_toNat s a]
  obtain ⟨-, he⟩ | ⟨hn, -⟩ := goRight_cases (eaForward s a) s
  · exact he
  · exact absurd ((inMemory_eaForward s a).mpr h) hn

/-- Settles O47: the jump leaves the target's right half pending. -/
theorem rightJumpRunsTheTargetHalf : Obligations.RightJumpRunsTheTargetHalf := by
  intro a s i hr hp w hd
  exact ⟨_, (exec_jumpRight a s).trans (goRight_in hp), step_pending_half hr hp rfl hd⟩

end Sys2Proof.Machine
end

section
/-! PROOFS. The forms that the meanings of the instructions are made of: an operand at an address that exists or does not
(20_memory.md R37, R38), and `SetAC` of a value with a view or without one (10_state.md R16). -/

namespace Sys2Proof.Machine

/-! ### Operands -/

theorem operandVal_forward {s : State} {a : Addr} (h : s.base + a.toNat ≤ 1023) (k : Int → Result) :
    operandVal (eaForward s a) s k = k (s.mem.read (s.base + a.toNat)).val := by
  rw [operandVal_in ((inMemory_eaForward s a).mpr h), eaForward_toNat]

theorem operandAbs_forward {s : State} {a : Addr} (h : s.base + a.toNat ≤ 1023) (k : Int → Result) :
    operandAbs (eaForward s a) s k = k |(s.mem.read (s.base + a.toNat)).val| := by
  rw [operandAbs_in ((inMemory_eaForward s a).mpr h), eaForward_toNat]

theorem operandVal_backward {s : State} {a : Addr} (hb : s.base ≤ 1023) (h : a.toNat ≤ s.base) (k : Int → Result) :
    operandVal (eaBackward s a) s k = k (s.mem.read (s.base - a.toNat)).val := by
  rw [operandVal_in ((inMemory_eaBackward s a).mpr ⟨h, (Nat.sub_le _ _).trans hb⟩), eaBackward_toNat]

theorem operandAbs_backward {s : State} {a : Addr} (hb : s.base ≤ 1023) (h : a.toNat ≤ s.base) (k : Int → Result) :
    operandAbs (eaBackward s a) s k = k |(s.mem.read (s.base - a.toNat)).val| := by
  rw [operandAbs_in ((inMemory_eaBackward s a).mpr ⟨h, (Nat.sub_le _ _).trans hb⟩), eaBackward_toNat]

/-- R37, R38: a forward address above 1023 does not exist. -/
theorem not_inMemory_eaForward {s : State} {a : Addr} (h : 1023 < s.base + a.toNat) : ¬ inMemory (eaForward s a) :=
  fun hin => absurd ((inMemory_eaForward s a).mp hin) (Nat.not_le.mpr h)

/-- R37, R38: a backward address below 0 does not exist. -/
theorem not_inMemory_eaBackward {s : State} {a : Addr} (h : s.base < a.toNat) : ¬ inMemory (eaBackward s a) :=
  fun hin => absurd ((inMemory_eaBackward s a).mp hin).1 (Nat.not_le.mpr h)

theorem goLeft_out {t : Int} (h : ¬ inMemory t) (s : State) : goLeft t s = .fault (.memoryAccess t s) := by
  obtain ⟨hin, -⟩ | ⟨-, he⟩ := goLeft_cases t s
  · exact absurd hin h
  · exact he

theorem goRight_out {t : Int} (h : ¬ inMemory t) (s : State) : goRight t s = .fault (.memoryAccess t s) := by
  obtain ⟨hin, -⟩ | ⟨-, he⟩ := goRight_cases t s
  · exact absurd hin h
  · exact he

theorem memWrite_out {ea : Int} (h : ¬ inMemory ea) (w : Word) (s : State) :
    memWrite ea w s = .fault (.memoryAccess ea s) := by
  obtain ⟨hin, -⟩ | ⟨-, he⟩ := memWrite_cases ea w s
  · exact absurd hin h
  · exact he

theorem memWriteField_out {ea : Int} (h : ¬ inMemory ea) (f : AddrField) (v : Addr) (s : State) :
    memWriteField ea f v s = .fault (.memoryAccess ea s) := by
  obtain ⟨hin, -⟩ | ⟨-, he⟩ := memWriteField_cases ea f v s
  · exact absurd hin h
  · exact he

/-- Settles O51: the address does not exist, and each of these instructions begins with its access. -/
theorem forwardOperandOutsideMemoryFaults : Obligations.ForwardOperandOutsideMemoryFaults := by
  intro a s h i hi
  have hout := not_inMemory_eaForward h
  simp only [List.mem_cons, List.not_mem_nil, or_false] at hi
  obtain rfl | rfl | rfl | rfl | rfl | rfl | rfl | rfl | rfl | rfl | rfl | rfl | rfl := hi
  · rw [exec_loadM, operandVal_out hout, eaForward]
  · rw [exec_loadAbsM, operandAbs_out hout, eaForward]
  · rw [exec_addM, operandVal_out hout, eaForward]
  · rw [exec_subM, operandVal_out hout, eaForward]
  · rw [exec_addAbsM, operandAbs_out hout, eaForward]
  · rw [exec_subAbsM, operandAbs_out hout, eaForward]
  · rw [exec_loadMQM, operandVal_out hout, eaForward]
  · rw [exec_mulM, operandVal_out hout, eaForward]
  · rw [exec_jumpLeft, goLeft_out hout, eaForward]
  · rw [exec_jumpRight, goRight_out hout, eaForward]
  · rw [exec_storLeftAddr, memWriteField_out hout, eaForward]
  · rw [exec_storRightAddr, memWriteField_out hout, eaForward]
  · rw [exec_storM, memWrite_out hout, eaForward]

/-! ### The accumulator -/

/-- R16: `SetAC` of a value with a view. -/
theorem setAC_of_viewOf {v : Int} {w : Word} {s : State} (h : viewOf s.params.viewPolicy v = some w) :
    setAC v s = .next { s with acVal := v, acView := w } := by
  rw [setAC, h]

/-- R16, R58: `SetAC` of a word's value takes the word as the view, under either policy. -/
theorem setAC_val (w : Word) (s : State) : setAC w.val s = .next { s with acVal := w.val, acView := w } :=
  setAC_of_viewOf (viewOf_val _ w)

/-- R16: `SetAC` of a viewable value. -/
theorem setAC_viewable {v : Int} {s : State} (h : s.Viewable v) :
    ∃ w, w.val = v % 2 ^ 40 ∧ setAC v s = .next { s with acVal := v, acView := w } := by
  obtain ⟨w, hw⟩ := exists_viewOf h
  exact ⟨w, val_of_viewOf hw, setAC_of_viewOf hw⟩

/-- R16, D33: `SetAC` of a value that is not viewable. -/
theorem setAC_not_viewable {v : Int} {s : State} (h : ¬ s.Viewable v) : ViewFault s v (setAC v s) := by
  obtain ⟨w, hw, -⟩ | ⟨-, he⟩ := setAC_cases v s
  · refine absurd ?_ h
    by_contra hn
    obtain ⟨hp, hv⟩ := not_or.mp hn
    have hfault : s.params.viewPolicy = .fault := by
      cases hvp : s.params.viewPolicy with
      | wrap => exact absurd hvp hp
      | fault => rfl
    exact absurd (hw.symm.trans (viewOf_eq_none.mpr ⟨hfault, hv⟩)) nofun
  · exact ⟨drawAC s, he, rfl⟩

/-- R16: an outcome that is a `SetAC`, as the statements on single instructions say it. -/
theorem eq_setAC_spec {o : Result} {v : Int} {s : State} (h : o = setAC v s) :
    (s.Viewable v → ∃ w, w.val = v % 2 ^ 40 ∧ o = .next { s with acVal := v, acView := w }) ∧
      (¬ s.Viewable v → ViewFault s v o) := by
  subst h
  exact ⟨setAC_viewable, setAC_not_viewable⟩

/-- R86: what follows a `SetAC` that faults does not run. -/
theorem ViewFault.andThen {s : State} {v : Int} {o : Result} (h : ViewFault s v o) (k : State → Result) :
    ViewFault s v (andThen o k) := by
  obtain ⟨left, rfl, hleft⟩ := h
  exact ⟨left, rfl, hleft⟩

end Sys2Proof.Machine
end

section
/-! PROOFS. Data transfer (41_data_transfer.md): opcodes 1, 2, 3, 4, 9 and 10. -/

namespace Sys2Proof.Machine

/-- Settles O34: the operand is a word's value, whose view is the word. -/
theorem loadForward : Obligations.LoadForward := by
  intro a s
  refine ⟨decodeHalf_encodeHalf (.loadM a), fun h => ?_, fun h => ?_⟩
  · rw [exec_loadM, operandVal_forward h]
    exact setAC_val _ s
  · exact forwardOperandOutsideMemoryFaults a s h (.loadM a) (List.mem_cons_self ..)

/-- Settles O35: as opcode 1, with the address of `operandVal_backward`. -/
theorem loadBackward : Obligations.LoadBackward := by
  intro a s hb
  refine ⟨decodeHalf_encodeHalf (.loadBackM a), fun h => ?_, fun h => ?_⟩
  · rw [exec_loadBackM, operandVal_backward hb h]
    exact setAC_val _ s
  · rw [exec_loadBackM, operandVal_out (not_inMemory_eaBackward h), eaBackward]

/-- D25: the absolute value of a word's value is the value. -/
theorem abs_word_val (w : Word) : |w.val| = w.val := abs_of_nonneg (word_val_range w).1

/-- Settles O36: the operand's absolute value is the word's value (D25). -/
theorem loadAbsoluteAssigns : Obligations.LoadAbsoluteAssigns := by
  intro a s h
  rw [exec_loadAbsM, operandAbs_forward h, abs_word_val]
  exact setAC_val _ s

/-- Settles O37: the operand's negation is `SetAC`'s value; it is in range for the zero word alone. -/
theorem loadNegativeAbsoluteBackward : Obligations.LoadNegativeAbsoluteBackward := by
  intro a s hb m
  obtain ⟨hpos, hlt⟩ : 0 ≤ m ∧ m < 2 ^ 40 := word_val_range _
  have hexec : a.toNat ≤ s.base → exec (.loadNegAbsM a) s = setAC (-m) s := fun h => by
    rw [exec_loadNegAbsM, operandAbs_backward hb h, abs_word_val]
  refine ⟨decodeHalf_encodeHalf (.loadNegAbsM a), fun h hm => ?_, fun h hm hp => ?_, fun h hm hp => ?_, fun h => ?_⟩
  · rw [hexec h, hm]
    exact setAC_val Word.zero s
  · obtain ⟨w, hw, he⟩ := setAC_viewable (s := s) (v := -m) (.inl hp)
    exact ⟨w, by omega, (hexec h).trans he⟩
  · rw [hexec h]
    refine setAC_not_viewable ?_
    rintro (hwrap | hrange)
    · exact absurd (hp.symm.trans hwrap) nofun
    · omega
  · rw [exec_loadNegAbsM, operandAbs_out (not_inMemory_eaBackward h), eaBackward]

/-- Settles O38: the operand goes to `MQ`, which has no view. -/
theorem loadMqFromMemory : Obligations.LoadMqFromMemory := by
  intro a s h
  rw [exec_loadMQM, operandVal_forward h]
  rfl

/-- Settles O39: opcode 10 is `SetAC` of `MQ`. -/
theorem loadMqIntoAccumulator : Obligations.LoadMqIntoAccumulator := fun x s => eq_setAC_spec (exec_loadMQ x s)

end Sys2Proof.Machine
end

section
/-! PROOFS. Arithmetic and shifts (42_arithmetic.md, 45_shift.md): opcodes 5 to 8, 11, 12, 20 and 21. -/

namespace Sys2Proof.Machine

/-- Settles O40: each of the four is `SetAC` of the exact result. -/
theorem addAndSubtractAreExact : Obligations.AddAndSubtractAreExact := by
  intro a s h m c hc
  simp only [List.mem_cons, List.not_mem_nil, or_false] at hc
  obtain rfl | rfl | rfl | rfl := hc
  · exact eq_setAC_spec (by rw [exec_addM, operandVal_forward h])
  · exact eq_setAC_spec (by rw [exec_subM, operandVal_forward h])
  · exact eq_setAC_spec (by rw [exec_addAbsM, operandAbs_forward h])
  · exact eq_setAC_spec (by rw [exec_subAbsM, operandAbs_forward h])

/-- R104, D9: the two 20-bit fields of a product's low 40 bits. -/
theorem product_fields (p : Int) :
    (0 ≤ productHigh p ∧ productHigh p < 2 ^ 20) ∧ (0 ≤ productLow p ∧ productLow p < 2 ^ 20) ∧
      p % 2 ^ 40 = productHigh p * 2 ^ 20 + productLow p := by
  rw [productHigh, productLow, Int.fdiv_eq_ediv_of_nonneg p (by norm_num)]
  omega

/-- Settles O41: a 20-bit field is viewable under either policy. -/
theorem multiplySplitsTheProduct : Obligations.MultiplySplitsTheProduct := by
  intro a s h
  obtain ⟨⟨hhi, hhi'⟩, ⟨hlo, hlo'⟩, hsplit⟩ := product_fields (s.mq * (s.mem.read (s.base + a.toNat)).val)
  have hrange := And.intro hhi (hhi'.trans (show (2 : Int) ^ 20 < 2 ^ 40 by norm_num))
  obtain ⟨w, hw, he⟩ := setAC_viewable (s := s) (.inr hrange)
  refine ⟨_, _, w, hhi, hhi', hlo, hlo', hsplit, hw.trans (Int.emod_eq_of_lt hrange.1 hrange.2), ?_⟩
  rw [exec_mulM, operandVal_forward h, he, andThen_next_left]
  rfl

/-- R105, D10: the range of the remainder that a quotient leaves, for a dividend and a divisor that are not zero. -/
theorem remainder_range {n d : Int} (rounding : DivRounding) (hn : n ≠ 0) (hd : 0 < d) :
    if 0 < n ∨ rounding = .floor then 0 ≤ n - quotient rounding n d * d ∧ n - quotient rounding n d * d < d
    else -d < n - quotient rounding n d * d ∧ n - quotient rounding n d * d ≤ 0 := by
  unfold quotient
  split
  · rw [Int.fdiv_eq_ediv_of_nonneg n hd.le, mul_comm, ← Int.emod_def]
    exact ⟨Int.emod_nonneg n hd.ne', Int.emod_lt_of_pos n hd⟩
  · next hfloor =>
    have hneg : n < 0 := by omega
    have htrunc : n - n.tdiv d * d = -(-n % d) := by
      rw [← neg_neg n, Int.neg_tdiv, Int.tdiv_eq_ediv_of_nonneg (by omega), Int.emod_def, neg_neg]
      ring
    rw [htrunc]
    have hnonneg := Int.emod_nonneg (-n) hd.ne'
    have hlt := Int.emod_lt_of_pos (-n) hd
    omega

/-- R105: opcode 12 past its two tests. -/
theorem exec_divM_nonzero {s : State} {a : Addr} (h : s.base + a.toNat ≤ 1023) (hac : s.acVal ≠ 0)
    (hd : (s.mem.read (s.base + a.toNat)).val ≠ 0) :
    exec (.divM a) s =
      let q := quotient s.params.divRounding s.acVal (s.mem.read (s.base + a.toNat)).val
      andThen (setAC (s.acVal - q * (s.mem.read (s.base + a.toNat)).val) s) fun t => .next (setMQ q t) := by
  rw [exec_divM, if_neg hac, operandVal_forward h, if_neg hd]

/-- Settles O42: the quotient of R105 and what it leaves of the dividend. -/
theorem divideGivesQuotientAndRemainder : Obligations.DivideGivesQuotientAndRemainder := by
  intro a s h hac d hd
  have hpos : 0 < d := lt_of_le_of_ne (word_val_range _).1 hd.symm
  refine ⟨quotient s.params.divRounding s.acVal d, s.acVal - quotient s.params.divRounding s.acVal d * d,
    add_sub_cancel _ _, remainder_range _ hac hpos, fun hv => ?_, fun hv => ?_⟩
  · obtain ⟨w, hw, he⟩ := setAC_viewable hv
    refine ⟨w, hw, ?_⟩
    rw [exec_divM_nonzero h hac hd]
    dsimp only
    rw [he, andThen_next_left]
    rfl
  · rw [exec_divM_nonzero h hac hd]
    exact (setAC_not_viewable hv).andThen _

/-- Settles O43: the tests of R105 in their order. -/
theorem divideFaultsInOrder : Obligations.DivideFaultsInOrder := by
  intro a s
  refine ⟨fun hac => ?_, fun hac h => ?_, fun hac h hz => ?_⟩
  · rw [exec_divM, if_pos hac, raise_eq]
  · rw [exec_divM, if_neg hac, operandVal_out (not_inMemory_eaForward h), eaForward]
  · rw [exec_divM, if_neg hac, operandVal_forward h, if_pos ((Word.val_eq_zero_iff _).mpr hz), raise_eq]

/-- Settles O44: both are `SetAC`; the floor of the half is the quotient by 2 with a remainder of 0 or 1. -/
theorem shiftsDoubleAndHalve : Obligations.ShiftsDoubleAndHalve := by
  intro x s
  have hhalf : s.acVal.fdiv 2 = s.acVal / 2 := Int.fdiv_eq_ediv_of_nonneg _ (by norm_num)
  refine ⟨s.acVal * 2, s.acVal.fdiv 2, mul_comm _ _, by omega, by omega, fun c hc => ?_⟩
  simp only [List.mem_cons, List.not_mem_nil, or_false] at hc
  obtain rfl | rfl := hc
  · exact eq_setAC_spec (exec_lsh x s)
  · exact eq_setAC_spec (exec_rsh x s)

end Sys2Proof.Machine
end

section
/-! PROOFS. Control transfer and stores (43_control_transfer.md, 44_store.md): opcodes 13 to 16, 18, 19 and 33. -/

namespace Sys2Proof.Machine

/-- Settles O45: the target exists or it does not. -/
theorem jumpsSetPcAndBuffer : Obligations.JumpsSetPcAndBuffer := by
  intro a s
  refine ⟨fun h => ⟨?_, ?_⟩, fun h => ⟨?_, ?_⟩⟩
  · rw [exec_jumpLeft, goLeft_in h]
  · rw [exec_jumpRight, goRight_in h]
  · exact forwardOperandOutsideMemoryFaults a s h (.jumpLeft a) (by simp)
  · exact forwardOperandOutsideMemoryFaults a s h (.jumpRight a) (by simp)

/-- R112, R113: a conditional jump that is taken is the unconditional one. -/
theorem exec_jumpPlus_taken {s : State} (h : 0 ≤ s.acVal) (a : Addr) :
    exec (.jumpPlusLeft a) s = exec (.jumpLeft a) s ∧ exec (.jumpPlusRight a) s = exec (.jumpRight a) s := by
  have hsign : acNonneg s = true := decide_eq_true h
  rw [exec_jumpPlusLeft, exec_jumpPlusRight, if_pos hsign, if_pos hsign]
  exact ⟨rfl, rfl⟩

/-- D7: a conditional jump that is not taken does nothing. -/
theorem exec_jumpPlus_not_taken {s : State} (h : s.acVal < 0) (a : Addr) :
    exec (.jumpPlusLeft a) s = .next s ∧ exec (.jumpPlusRight a) s = .next s := by
  have hsign : ¬ acNonneg s = true := fun ht => absurd (of_decide_eq_true ht) h.not_ge
  rw [exec_jumpPlusLeft, exec_jumpPlusRight, if_neg hsign, if_neg hsign]
  exact ⟨rfl, rfl⟩

/-- Settles O46: taken, as the unconditional jumps of `jumpsSetPcAndBuffer`. -/
theorem conditionalJumpsTestTheSign : Obligations.ConditionalJumpsTestTheSign := by
  intro a s
  refine ⟨fun hac h => ?_, fun hac h => ?_, fun hac => exec_jumpPlus_not_taken hac a⟩ <;>
    obtain ⟨hleft, hright⟩ := exec_jumpPlus_taken hac a <;> rw [hleft, hright]
  · exact (jumpsSetPcAndBuffer a s).1 h
  · exact (jumpsSetPcAndBuffer a s).2 h

/-- R39, R44: what a store to the forward address leaves, in the stored word and in every other. -/
theorem frame_of_store {i : Instr} {a : Addr} {s : State} {w : Word}
    (h : exec i s = .next { s with mem := s.mem.write (eaForward s a).toNat w }) :
    ∃ t, exec i s = .next t ∧ t = { s with mem := t.mem } ∧ t.mem.read (eaForward s a).toNat = w ∧
      ∀ b : Nat, (b : Int) ≠ eaForward s a → t.mem.read b = s.mem.read b := by
  refine ⟨_, h, rfl, Memory.read_write_same _ _ _, fun b hb => Memory.read_write_other _ _ _ _ fun heq => hb ?_⟩
  rw [heq, eaForward_toNat, eaForward, Nat.cast_add]

/-- Settles O48: `frame_of_store` with the accumulator's view. -/
theorem storeWholeWord : Obligations.StoreWholeWord := by
  intro a s h
  exact frame_of_store (by rw [exec_storM, memWrite_in ((inMemory_eaForward s a).mpr h)])

/-- Settles O49: `frame_of_store` with the read word, one field of it replaced. -/
theorem storeAddressFields : Obligations.StoreAddressFields := by
  intro a s h
  have hin := (inMemory_eaForward s a).mpr h
  exact ⟨frame_of_store (by rw [exec_storLeftAddr, memWriteField_in hin, setField_laddr]),
    frame_of_store (by rw [exec_storRightAddr, memWriteField_in hin, setField_raddr])⟩

/-- Settles O50: the load reads the stored view, whose value is that of `AC` modulo `2^40`. -/
theorem storeThenLoad : Obligations.StoreThenLoad := by
  intro a s hview h
  obtain ⟨t, ht, hframe, hread, -⟩ := storeWholeWord a s h
  rw [eaForward_toNat] at hread
  have hbase : t.base = s.base := by rw [hframe]
  obtain ⟨-, hload, -⟩ := loadForward a t
  have hload := hload (hbase ▸ h)
  rw [hbase, hread] at hload
  exact ⟨t, _, ht, hload, val_of_viewOf hview, rfl⟩

end Sys2Proof.Machine
end

section
/-! PROOFS. Faults (60_exceptions.md R141, R145): `Shape` with `SetAC`'s fault resolved, and the fault of a step. -/

namespace Sys2Proof.Machine

/-- The faults of an instruction, each with its condition and the opcodes that raise it. -/
inductive Raised (i : Instr) (s : State) : Fault → Prop where
  | view (v : Int) (hp : s.params.viewPolicy = .fault) (hv : ¬ (0 ≤ v ∧ v < 2 ^ 40))
      (hi : i.opcode.toNat ∈ [4, 5, 6, 7, 8, 10, 12, 20, 21]) : Raised i s (.constructionError v (drawAC s))
  | outside (ea : Int) (hi : i.opcode.toNat ∉ [10, 20, 21, 50]) (ha : ea = effectiveAddress i s) (he : ¬ inMemory ea) :
      Raised i s (.memoryAccess ea s)
  | divideByZero (a : Addr) (hi : i = .divM a)
      (hz : s.acVal = 0 ∨ (inMemory (eaForward s a) ∧ (s.mem.read (eaForward s a).toNat).val = 0)) :
      Raised i s (.divideByZero s)

/-- R16: when `SetAC` faults, and with what. -/
theorem setAC_fault {v : Int} {s : State} {f : Fault} (h : setAC v s = .fault f) :
    (s.params.viewPolicy = .fault ∧ ¬ (0 ≤ v ∧ v < 2 ^ 40)) ∧ f = .constructionError v (drawAC s) := by
  obtain ⟨w, -, he⟩ | ⟨hn, he⟩ := setAC_cases v s <;> rw [he] at h
  · cases h
  · cases h
    exact ⟨viewOf_eq_none.mp hn, rfl⟩

/-- R104, R105: setting `MQ` after the accumulator adds no fault. -/
theorem setAC_setMQ_fault {v q : Int} {s : State} {f : Fault}
    (h : andThen (setAC v s) (fun u => .next (setMQ q u)) = .fault f) : setAC v s = .fault f := by
  obtain hf | ⟨u, -, hu⟩ := andThen_fault.mp h
  · exact hf
  · cases hu

theorem Shape.raised {i : Instr} {s : State} {o : Result} {f : Fault} (hs : Shape i s o) (ho : o = .fault f) :
    Raised i s f := by
  cases hs with
  | load v hi hv => exact absurd hv (setAC_fault ho).1.2
  | compute v hi =>
    obtain ⟨⟨hp, hv⟩, rfl⟩ := setAC_fault ho
    exact .view v hp hv ((by decide : [4, 5, 6, 7, 8, 10, 20, 21] ⊆ [4, 5, 6, 7, 8, 10, 12, 20, 21]) hi)
  | multiply v q hi hv => exact absurd hv (setAC_fault (setAC_setMQ_fault ho)).1.2
  | divide v q hi =>
    obtain ⟨⟨hp, hv⟩, rfl⟩ := setAC_fault (setAC_setMQ_fault ho)
    exact .view v hp hv (by simp [hi])
  | outside ea hi ha he => cases ho; exact .outside ea hi ha he
  | divideByZero a hi hz => cases ho; exact .divideByZero a hi hz
  | setMQ | left | right | stay | store | halt => cases ho

theorem raised_of_exec {i : Instr} {s : State} {f : Fault} (h : exec i s = .fault f) : Raised i s f :=
  (exec_shape i s).raised h

/-- Settles O52: the conditions that `Raised` records. -/
theorem eachFaultHasItsRaisers : Obligations.EachFaultHasItsRaisers := by
  intro i s
  refine ⟨fun v l h => ?_, fun o l h => ?_, fun e l h => ?_, fun l h => ?_⟩
  · cases raised_of_exec h with
    | view _ hp hv hi => exact ⟨hp, hi, hv⟩
  · cases raised_of_exec h
  · cases raised_of_exec h with
    | outside _ hi ha he => exact ⟨hi, ha, fun hin => he ⟨hin.1, Int.lt_add_one_of_le hin.2⟩⟩
  · cases raised_of_exec h with
    | divideByZero a hi hz =>
      subst hi
      rw [inMemory_eaForward, eaForward_toNat, Word.val_eq_zero_iff] at hz
      exact ⟨rfl, hz⟩

/-- R86, R145: the state that an instruction's fault leaves. -/
theorem Raised.left_eq {i : Instr} {s : State} {f : Fault} (h : Raised i s f) :
    (f.code ≠ 1 → f.left = s) ∧ (f.code = 1 → s.SameButAC f.left) := by
  cases h with
  | view => exact ⟨fun hn => absurd rfl hn, fun _ => rfl⟩
  | outside => exact ⟨fun _ => rfl, nofun⟩
  | divideByZero => exact ⟨fun _ => rfl, nofun⟩

/-- Settles O53: the step is Execute on the fetched state, which faults in the dispatch or in the instruction. -/
theorem faultsArePrecise : Obligations.FaultsArePrecise := by
  intro s t f hr hp hf h
  rw [step_of_fetch_next hr hp hf] at h
  obtain ⟨i, -, he⟩ | ⟨op, -, he⟩ := execute_cases t <;> rw [he] at h
  · exact (raised_of_exec h).left_eq
  · cases h
    exact ⟨fun _ => rfl, nofun⟩

/-! ### No refusal -/

theorem setAC_ne_refused (v : Int) (s : State) (r : Refusal) : setAC v s ≠ .refused r := by
  obtain ⟨w, -, he⟩ | ⟨-, he⟩ := setAC_cases v s <;> rw [he] <;> nofun

theorem setAC_setMQ_ne_refused (v q : Int) (s : State) (r : Refusal) :
    andThen (setAC v s) (fun u => .next (setMQ q u)) ≠ .refused r := by
  intro h
  obtain hr | ⟨u, -, hu⟩ := andThen_refused.mp h
  · exact setAC_ne_refused v s r hr
  · cases hu

theorem Shape.ne_refused {i : Instr} {s : State} {o : Result} (hs : Shape i s o) (r : Refusal) : o ≠ .refused r := by
  cases hs with
  | load v => exact setAC_ne_refused v s r
  | compute v => exact setAC_ne_refused v s r
  | multiply v q => exact setAC_setMQ_ne_refused v q s r
  | divide v q => exact setAC_setMQ_ne_refused v q s r
  | _ => nofun

theorem fetch_ne_refused (s : State) (r : Refusal) : fetch s ≠ .refused r := by
  obtain ⟨h, -, hf⟩ | ⟨-, -, hf⟩ | ⟨-, -, hf⟩ := fetch_cases s <;> rw [hf] <;> nofun

theorem execute_ne_refused (s : State) (r : Refusal) : execute s ≠ .refused r := by
  obtain ⟨i, -, he⟩ | ⟨op, -, he⟩ := execute_cases s <;> rw [he]
  · exact (exec_shape i s).ne_refused r
  · nofun

/-- Settles O54: neither Fetch nor Execute refuses. -/
theorem noStepIsRefused : Obligations.NoStepIsRefused := by
  intro s r h
  obtain ⟨-, -, he⟩ | ⟨-, -, he⟩ | ⟨-, he⟩ := step_cases s <;> rw [he] at h
  · cases h
  · obtain hf | ⟨t, -, ht⟩ := andThen_refused.mp h
    · exact fetch_ne_refused s r hf
    · exact execute_ne_refused t r ht
  · cases h

/-- Settles O60: each code and each state is read off the fault's constructor. -/
theorem faultCodesAndResumption : Obligations.FaultCodesAndResumption := by
  intro s v e o
  refine ⟨rfl, rfl, rfl, rfl, fun f hf => ?_⟩
  simp only [List.mem_cons, List.not_mem_nil, or_false] at hf
  obtain rfl | rfl | rfl | rfl := hf <;> exact ⟨rfl, rfl⟩

end Sys2Proof.Machine
end

section
/-! PROOFS. The host's operations (70_reset_and_hazards.md R150, R153, R154; 40_fetch_execute.md R82 to R84). -/

namespace Sys2Proof.Machine

/-- R35: the addresses that exist, as the spec writes their range. -/
theorem inMemory_iff (b : Int) : inMemory b ↔ 0 ≤ b ∧ b ≤ 1023 := by
  simp only [inMemory, Config.memSize]
  omega

/-- Settles O55: the two cases of `setBase_cases`. -/
theorem setBaseMovesPc : Obligations.SetBaseMovesPc := by
  intro b s
  rw [← inMemory_iff]
  obtain ⟨hin, he⟩ | ⟨hout, he⟩ := setBase_cases b s <;> rw [he]
  · exact ⟨fun _ => ⟨rfl, Int.toNat_of_nonneg hin.1⟩, fun hout => absurd hin hout⟩
  · exact ⟨fun hin => absurd hin hout, fun _ => rfl⟩

/-- Settles O58: the list is the words of `lo .. hi`, by its length and its k-th entry. -/
theorem hostReads : Obligations.HostReads := by
  intro lo hi s
  have hbound : hi < Config.memSize ↔ hi ≤ 1023 := by
    simp only [Config.memSize]
    omega
  refine ⟨rfl, fun h => ?_, fun h => ?_⟩
  · refine ⟨_, if_pos (by rwa [hbound]), ?_, fun k hk => ?_⟩
    · rw [List.length_map, List.length_range]
      omega
    · rw [List.getElem?_map, List.getElem?_range (by omega), Option.map_some]
  · exact if_neg (by rwa [hbound])

/-! ### The bulk load -/

/-- D16: a load of two sequences is the load of the one, then of the other behind it. -/
theorem bulkLoadFrom_append (i : Nat) (us vs : List Word) (s : State) :
    bulkLoadFrom i (us ++ vs) s = andThen (bulkLoadFrom i us s) (bulkLoadFrom (i + us.length) vs) := by
  induction us generalizing i s with
  | nil => rfl
  | cons u us ih =>
    rw [List.cons_append, bulkLoadFrom_cons, bulkLoadFrom_cons, List.length_cons]
    cases memWrite ((s.base : Int) + (i : Int)) u s with
    | next t => rw [andThen_next_left, andThen_next_left, ih, Nat.add_assoc, Nat.add_comm 1]
    | fault f => rfl
    | refused r => rfl

/-- R82: `m'` is `m` with the words `ws` from the address `a` on. -/
structure Loaded (m m' : Memory) (a : Nat) (ws : List Word) : Prop where
  read_in : ∀ k, (h : k < ws.length) → m'.read (a + k) = ws[k]
  read_out : ∀ b, b < a ∨ a + ws.length ≤ b → m'.read b = m.read b

theorem loaded_nil (m : Memory) (a : Nat) : Loaded m m a [] := ⟨nofun, fun _ _ => rfl⟩

/-- One word at `a`, and then the others behind it, which leave `a` alone. -/
theorem Loaded.cons {m m' : Memory} {a : Nat} {w : Word} {ws : List Word} (h : Loaded (m.write a w) m' (a + 1) ws) :
    Loaded m m' a (w :: ws) := by
  refine ⟨fun k hk => ?_, fun b hb => ?_⟩
  · cases k with
    | zero => exact (h.read_out a (.inl (Nat.lt_succ_self a))).trans (Memory.read_write_same m a w)
    | succ k =>
      rw [List.getElem_cons_succ, ← h.read_in k (Nat.lt_of_succ_lt_succ hk), Nat.add_assoc, Nat.add_comm 1]
  · rw [List.length_cons] at hb
    rw [h.read_out b (by omega), Memory.read_write_other m a b w (by omega)]

/-- R82: a load that fits completes, and writes memory alone. -/
theorem bulkLoadFrom_fits (i : Nat) (ws : List Word) (s : State) (h : s.base + i + ws.length ≤ Config.memSize) :
    ∃ m, bulkLoadFrom i ws s = .next { s with mem := m } ∧ Loaded s.mem m (s.base + i) ws := by
  induction ws generalizing i s with
  | nil => exact ⟨s.mem, rfl, loaded_nil _ _⟩
  | cons w ws ih =>
    rw [List.length_cons] at h
    have hin : inMemory ((s.base : Int) + (i : Int)) := ⟨by omega, by omega⟩
    have hat : ((s.base : Int) + (i : Int)).toNat = s.base + i := by omega
    obtain ⟨m, he, hm⟩ := ih (i + 1) { s with mem := s.mem.write (s.base + i) w } (by dsimp only; omega)
    exact ⟨m, by rw [bulkLoadFrom_cons, memWrite_in hin, hat, andThen_next_left, he], hm.cons⟩

/-- D16: the word that would stand at 1024 faults. -/
theorem bulkLoadFrom_at_limit (i : Nat) (w : Word) (ws : List Word) (s : State) (h : s.base + i = Config.memSize) :
    bulkLoadFrom i (w :: ws) s = .fault (.memoryAccess 1024 s) := by
  have hea : (s.base : Int) + (i : Int) = 1024 := by
    rw [← Nat.cast_add, h]
    rfl
  have hout : ¬ inMemory 1024 := fun hin => absurd hin.2 (lt_irrefl _)
  rw [bulkLoadFrom_cons, hea, memWrite_out hout, andThen_fault_left]

/-- D16: a load that does not fit writes the words that fit, and then faults. -/
theorem bulkLoad_overflows (ws : List Word) (s : State) (hb : s.base ≤ 1023) (h : 1024 < s.base + ws.length) :
    ∃ m, bulkLoad ws s = .fault (.memoryAccess 1024 { s with mem := m }) ∧
      Loaded s.mem m s.base (ws.take (1024 - s.base)) := by
  obtain ⟨w, rest, hsplit⟩ : ∃ w rest, ws.drop (1024 - s.base) = w :: rest :=
    List.exists_cons_of_ne_nil fun hnil => by
      have := List.drop_eq_nil_iff.mp hnil
      omega
  have hlen : (ws.take (1024 - s.base)).length = 1024 - s.base := List.length_take_of_le (by omega)
  obtain ⟨m, he, hm⟩ := bulkLoadFrom_fits 0 (ws.take (1024 - s.base)) s (by rw [hlen, Config.memSize]; omega)
  refine ⟨m, ?_, hm⟩
  rw [bulkLoad, ← List.take_append_drop (1024 - s.base) ws, hsplit, bulkLoadFrom_append, he, andThen_next_left, hlen]
  exact bulkLoadFrom_at_limit _ w rest _ (by dsimp only; rw [Config.memSize]; omega)

/-- Settles O56: `bulkLoadFrom_fits`, and `bulkLoad_overflows` for the words that fit. -/
theorem bulkLoadCopiesTheSequence : Obligations.BulkLoadCopiesTheSequence := by
  intro ws s hb
  refine ⟨fun h => ?_, fun h => ?_⟩
  · obtain ⟨m, he, hm⟩ := bulkLoadFrom_fits 0 ws s h
    exact ⟨_, he, rfl, hm.read_in, hm.read_out⟩
  · obtain ⟨m, he, hm⟩ := bulkLoad_overflows ws s hb h
    refine ⟨_, he, rfl, fun k hk hfit => ?_, fun b hlt => hm.read_out b (.inl hlt)⟩
    rw [hm.read_in k (by rw [List.length_take]; omega), List.getElem_take]

/-- R82: a load that completes has written memory alone. -/
theorem bulkLoadFrom_frame (i : Nat) (ws : List Word) {s t : State} (h : bulkLoadFrom i ws s = .next t) :
    t = { s with mem := t.mem } := by
  induction ws generalizing i s with
  | nil => cases h; rfl
  | cons w ws ih =>
    rw [bulkLoadFrom_cons] at h
    obtain ⟨u, hu, ht⟩ := andThen_next.mp h
    obtain ⟨-, he⟩ | ⟨-, he⟩ := memWrite_cases ((s.base : Int) + (i : Int)) w s <;> rw [he] at hu <;> cases hu
    have hframe := ih (i + 1) ht
    exact hframe

/-! ### The runs -/

/-- Settles O59: the load writes neither `PC` nor `IBR`, and the turns begin from its state. -/
theorem bulkRunGoesOnFromPcAndBuffer : Obligations.BulkRunGoesOnFromPcAndBuffer := by
  intro n ws s
  refine ⟨fun f hf => ?_, fun t ht => ?_⟩
  · rw [bulkRun, hf, andThen_fault_left]
  · have hframe := bulkLoadFrom_frame 0 ws ht
    refine ⟨by rw [hframe], by rw [hframe], ?_⟩
    rw [bulkRun, ht, andThen_next_left]
    rfl

/-- R73, R83: below the limit, the step of a running machine is a cycle. -/
theorem step_eq_cycle {s : State} (hr : s.run = .running) (hp : s.pc ≤ 1023) : step s = cycle s := by
  obtain ⟨-, hlimit, -⟩ | ⟨-, -, he⟩ | ⟨hn, -⟩ := step_cases s
  · exact absurd hlimit (Nat.lt_succ_of_le hp).ne
  · exact he
  · exact absurd hr hn

/-- Settles O57: below the limit the single step is the machine's step on the stored word, and then the outcome that
`run_of_cycle` tells. -/
theorem singleStepRunsOneCycle : Obligations.SingleStepRunsOneCycle := by
  intro w s
  refine ⟨fun hp => ?_, fun hp => ?_⟩
  · obtain ⟨hin, -⟩ | ⟨-, he⟩ := singleStep_cases w s
    · exact absurd hin (Nat.not_lt.mpr hp)
    · exact he
  · intro s'
    have hcycle : step s' = cycle s' := step_eq_cycle rfl hp
    have hsingle : singleStep w s = andThen (step s') endStep := by
      rw [hcycle]
      obtain ⟨-, he⟩ | ⟨hout, -⟩ := singleStep_cases w s
      · exact he
      · exact absurd (Nat.lt_succ_of_le hp) (Nat.not_lt.mpr hout)
    refine ⟨fun f hf => by rw [hsingle, hf, andThen_fault_left], fun t ht => ?_⟩
    have hrun := run_of_cycle rfl (hcycle.symm.trans ht)
    rw [hsingle, ht, andThen_next_left, endStep_eq, hrun]
    split <;> rfl

end Sys2Proof.Machine
end
